-- ==== Sys2Proof/Word.lean ====
section
/-!
DEFINITION. The word types of the streamcipher keystream core.
Every value of the spec is unsigned (00_scope.md R11): bytes, 32-bit words, the cursor.
-/
namespace Sys2Proof

/-- A byte of the input, output or passphrase stream (R12). -/
abbrev Byte := BitVec 8

/-- A command word, a response word, a seed or a SHA-256 word (R70, R74, R8, R105). -/
abbrev Word := BitVec 32

/-- A cursor value in a configuration whose `CURSOR_W` is `cursorW` (R9, R25). -/
abbrev Count (cursorW : Nat) := BitVec cursorW

end Sys2Proof
end

