-- ==== Sys2Proof/Config.lean ====
section
/-!
DEFINITION. What an implementation fixes (00_scope.md R8, R9), and the free value of the default reset (R14, R142).
The reference value of the whole structure is `Machine.referenceParams` (Machine/Reference.lean).
-/
namespace Sys2Proof

/-- The 8 seeds of 32 bits (R8). -/
abbrev SeedSet := Vector Word 8

/-- The bank of 8 generator states, each of the type `GState` of the parameter `GEN` (R8, R22, R160). -/
abbrev GenBank (GState : Type) := Vector GState 8

/-- The 32-byte digest (R8, R101). -/
abbrev Digest := Vector Byte 32

/-- The byte order that reads a 4-byte digest window as a seed (R58, R113). -/
inductive SeedOrder where
  | littleEndian
  | bigEndian
deriving DecidableEq, Repr

/-- The named parameters of R9, arguments of every operation of the machine. `GState`, the state type of `GEN` (R160), is
any type, and `CURSOR_W` any number: both are parameters of this type and of the state's (log entry 6). -/
structure Params (GState : Type) (cursorW : Nat) where
  /-- `HASH`: total, exactly 32 bytes, a function of the bytes alone (R101). -/
  hash : List Byte → Digest
  /-- `SEED_ORDER` (R113). -/
  seedOrder : SeedOrder
  /-- `gseed` of `GEN` (R160). -/
  gseed : Word → GState
  /-- `gdraw` of `GEN`: the keystream byte and the successor state, from the state alone (R160). -/
  gdraw : GState → Byte × GState
  /-- `BUF_DEPTH`, in bytes (R55). -/
  bufDepth : Nat
  /-- `PP_MAX_BYTES` (R9, D15). -/
  ppMaxBytes : Nat
  /-- `DEFAULT_SEEDS`: the seeds of the n-th draw, under no law (R14, R142). -/
  defaultSeeds : Nat → SeedSet

/-- The bounds on the parameters: 3 ≤ `BUF_DEPTH` ≤ 2^32 − 1 (R9), and 8 divides 2^`CURSOR_W`, which R167 gives as the
reason that `CURSOR mod 8` is continuous across the wrap (DEDUCED, log entry 6). -/
def Params.Valid {G : Type} {W : Nat} (P : Params G W) : Prop :=
  3 ≤ P.bufDepth ∧ P.bufDepth ≤ 2 ^ 32 - 1 ∧ 3 ≤ W

/-- The drawn default seeds, FREE: no body, nothing can be proved of a value (R14, R142: a model must not pick one).
The argument is the number of the draw, `State.drawCount`. DESIGN CHOICE (log entry 2). -/
opaque Config.defaultSeeds : Nat → SeedSet

end Sys2Proof
end

