-- ==== Sys2Proof/Machine/Operands.lean ====
section
/-!
DEFINITION. Bit fields, lanes and byte orders: how bytes are taken from a word and words are put together from bytes
(00_scope.md R11; 20_memory.md R57, R58; 30_encoding.md R72, R74; 40_seed_derivation.md R113).
-/
namespace Sys2Proof.Machine

/-- Lane `j` of a word, bits `[8j+7:8j]` (R57). -/
def lane (w : Word) (j : Nat) : Byte := w.extractLsb' (8 * j) 8

/-- The word `{l3, l2, l1, l0}`, `l3` the most significant byte (R11). -/
def ofLanes (l3 l2 l1 l0 : Byte) : Word := l3 ++ l2 ++ l1 ++ l0

/-- `OPC = cmd[31:24]` (R70). -/
def opcode (w : Word) : Byte := w.extractLsb' 24 8

/-- The byte count of PP_ABSn, ADDn and DRAINn, `OPC[1:0]` (R72). -/
def opcodeCount (opc : Byte) : Nat := opc.toNat % 4

/-- The seed index of RD_SEED, `OPC[2:0]` (R72). -/
def seedIndex (opc : Byte) : Fin 8 := Fin.ofNat 8 opc.toNat

/-- A byte placed in lane `j` of an otherwise zero word: `zext_32(b) << (8*j)` (R200). -/
def inLane (j : Nat) (b : Byte) : Word := b.setWidth 32 <<< (8 * j)

/-- The drain response with no lane filled yet: `zext_32({c[1:0], 0x000000})`, `cnt` in bits [25:24] (R200, R74). -/
def drainHeader (c : Nat) : Word := (BitVec.ofNat 2 c ++ 0#24).setWidth 32

/-- The upper half of the count, `CURSOR[63:32]` (R212); bits a narrower cursor does not have are 0 (log entry 6). -/
def countHi {W : Nat} (c : Count W) : Word := c.extractLsb' 32 32

/-- The lower half of the count, `CURSOR[31:0]` (R212). -/
def countLo {W : Nat} (c : Count W) : Word := c.extractLsb' 0 32

/-- The 4-byte window `d[4i .. 4i+4)` read as a number in the given order (R113). -/
def seedWindow (order : SeedOrder) (d : Digest) (i : Fin 8) : Word :=
  match order with
  | .littleEndian => ofLanes d[4 * i.val + 3] d[4 * i.val + 2] d[4 * i.val + 1] d[4 * i.val]
  | .bigEndian => ofLanes d[4 * i.val] d[4 * i.val + 1] d[4 * i.val + 2] d[4 * i.val + 3]

/-- `Slice(d)`: seed `i` is window `i`, in index order (R113, R114). -/
def slice (order : SeedOrder) (d : Digest) : SeedSet := Vector.ofFn (seedWindow order d)

/-- `derive(p) = Slice(HASH(p))` (R100). -/
def derive {G : Type} {W : Nat} (P : Params G W) (p : List Byte) : SeedSet := slice P.seedOrder (P.hash p)

end Sys2Proof.Machine
end

