-- ==== Sys2Proof/Syntax.lean ====
section
/-!
DEFINITION. The commands (30_encoding.md R73), their mnemonics and formats, and the abstract assembler line (R80).
-/
namespace Sys2Proof

/-- One constructor per row of spec/opcode_table.json. A byte operand `bj` is lane `j` of the command word (R72). -/
inductive Instr where
  | nop
  | rstDef
  | ppBegin
  | ppAbs1 (b0 : Byte)
  | ppAbs2 (b0 b1 : Byte)
  | ppAbs3 (b0 b1 b2 : Byte)
  | ppEnd
  | add1 (b0 : Byte)
  | add2 (b0 b1 : Byte)
  | add3 (b0 b1 b2 : Byte)
  | drain1
  | drain2
  | drain3
  | flush
  | rdStatus
  | rdSize
  | rdTotalLo
  | rdTotalHi
  | rdSeed (i : Fin 8)
deriving DecidableEq, Repr

/-- The mnemonics of R73, one for each row of the opcode map. -/
inductive Mnemonic where
  | NOP | RST_DEF | PP_BEGIN | PP_ABS1 | PP_ABS2 | PP_ABS3 | PP_END
  | ADD1 | ADD2 | ADD3 | DRAIN1 | DRAIN2 | DRAIN3 | FLUSH
  | RD_STATUS | RD_SIZE | RD_TOTAL_LO | RD_TOTAL_HI | RD_SEED
deriving DecidableEq, Repr

/-- The four formats of a command word (R71). -/
inductive Format where
  | z | b1 | b2 | b3
deriving DecidableEq, Repr

/-- The mnemonic of a command (R73). -/
def Instr.mnemonic : Instr → Mnemonic
  | .nop => .NOP
  | .rstDef => .RST_DEF
  | .ppBegin => .PP_BEGIN
  | .ppAbs1 _ => .PP_ABS1
  | .ppAbs2 _ _ => .PP_ABS2
  | .ppAbs3 _ _ _ => .PP_ABS3
  | .ppEnd => .PP_END
  | .add1 _ => .ADD1
  | .add2 _ _ => .ADD2
  | .add3 _ _ _ => .ADD3
  | .drain1 => .DRAIN1
  | .drain2 => .DRAIN2
  | .drain3 => .DRAIN3
  | .flush => .FLUSH
  | .rdStatus => .RD_STATUS
  | .rdSize => .RD_SIZE
  | .rdTotalLo => .RD_TOTAL_LO
  | .rdTotalHi => .RD_TOTAL_HI
  | .rdSeed _ => .RD_SEED

/-- One assembler line, `MNEMONIC [operand {, operand}]`, with its operands as the numbers written (R80). -/
structure Line where
  mnemonic : Mnemonic
  operands : List Nat
deriving DecidableEq, Repr

/-- The line a command is written as: its bytes in lane order, or its seed index (R80). -/
def Instr.line (i : Instr) : Line :=
  ⟨i.mnemonic,
   match i with
   | .ppAbs1 b0 | .add1 b0 => [b0.toNat]
   | .ppAbs2 b0 b1 | .add2 b0 b1 => [b0.toNat, b1.toNat]
   | .ppAbs3 b0 b1 b2 | .add3 b0 b1 b2 => [b0.toNat, b1.toNat, b2.toNat]
   | .rdSeed k => [k.val]
   | .nop | .rstDef | .ppBegin | .ppEnd | .drain1 | .drain2 | .drain3 | .flush
   | .rdStatus | .rdSize | .rdTotalLo | .rdTotalHi => []⟩

end Sys2Proof
end

