-- ==== Sys2Proof/WellFormed.lean ====
section
/-!
DEFINITION. Which assembler lines are well formed (30_encoding.md R80). A command of type `Instr` carries its operands in
their own widths, so each one's line is well formed (`Laws.OpcodeRow`); a line may fail either check below and then
assembles to no word.
-/
namespace Sys2Proof

/-- How many operands a line of this mnemonic takes (R80). -/
def Mnemonic.operandCount : Mnemonic → Nat
  | .PP_ABS1 | .ADD1 | .RD_SEED => 1
  | .PP_ABS2 | .ADD2 => 2
  | .PP_ABS3 | .ADD3 => 3
  | .NOP | .RST_DEF | .PP_BEGIN | .PP_END | .DRAIN1 | .DRAIN2 | .DRAIN3 | .FLUSH
  | .RD_STATUS | .RD_SIZE | .RD_TOTAL_LO | .RD_TOTAL_HI => 0

/-- Operands are below this bound: an index is in 0..7, a byte in 0..255 (R80). -/
def Mnemonic.operandBound : Mnemonic → Nat
  | .RD_SEED => 8
  | .NOP | .RST_DEF | .PP_BEGIN | .PP_ABS1 | .PP_ABS2 | .PP_ABS3 | .PP_END | .ADD1 | .ADD2 | .ADD3
  | .DRAIN1 | .DRAIN2 | .DRAIN3 | .FLUSH | .RD_STATUS | .RD_SIZE | .RD_TOTAL_LO | .RD_TOTAL_HI => 256

/-- The line has as many operands as its mnemonic takes. -/
def Line.countOk (l : Line) : Bool := l.operands.length == l.mnemonic.operandCount

/-- Every operand of the line is in its range. -/
def Line.rangeOk (l : Line) : Bool := l.operands.all fun n => decide (n < l.mnemonic.operandBound)

/-- 'An operand out of range, or a wrong operand count, is an assembly error' (R80). -/
def Line.wellFormed (l : Line) : Bool := l.countOk && l.rangeOk

/-- A command is well formed when its line is. -/
def Instr.wellFormed (i : Instr) : Bool := i.line.wellFormed

end Sys2Proof
end

