-- ==== Sys2Proof/Decode.lean ====
section
/-!
DEFINITION. Decoding and encoding of command words (30_encoding.md R70-R81). `decode` follows the pseudocode of R76;
`opcodeTable` is the map of R73 with its match and mask columns; `encode` puts the word of R71 and R80 together.
-/
namespace Sys2Proof

open Machine (lane ofLanes opcode seedIndex)

/-- Why a word is illegal (R76): its opcode is unlisted (R78), or a reserved bit of its format is set (R77). -/
inductive Illegal where
  | unlistedOpcode
  | reservedBitSet
deriving DecidableEq, Repr

/-- What a command word is: a command, or `Illegal` with the reason named (R76). -/
inductive Decoded where
  | command (i : Instr)
  | illegal (why : Illegal)
deriving DecidableEq, Repr

/-- The case over `opc` of R76: the format an opcode selects and the command with the bytes it may carry. -/
def ofOpcode (opc b0 b1 b2 : Byte) : Option (Format × Instr) :=
  match opc.toNat with
  | 0x00 => some (.z, .nop)
  | 0x01 => some (.z, .rstDef)
  | 0x04 => some (.z, .ppBegin)
  | 0x05 => some (.b1, .ppAbs1 b0)
  | 0x06 => some (.b2, .ppAbs2 b0 b1)
  | 0x07 => some (.b3, .ppAbs3 b0 b1 b2)
  | 0x08 => some (.z, .ppEnd)
  | 0x11 => some (.b1, .add1 b0)
  | 0x12 => some (.b2, .add2 b0 b1)
  | 0x13 => some (.b3, .add3 b0 b1 b2)
  | 0x21 => some (.z, .drain1)
  | 0x22 => some (.z, .drain2)
  | 0x23 => some (.z, .drain3)
  | 0x24 => some (.z, .flush)
  | 0x30 => some (.z, .rdStatus)
  | 0x31 => some (.z, .rdSize)
  | 0x32 => some (.z, .rdTotalLo)
  | 0x33 => some (.z, .rdTotalHi)
  | n => if 0x38 ≤ n ∧ n ≤ 0x3F then some (.z, .rdSeed (seedIndex opc)) else none

/-- The reserved bits of the format are all 0 (R77): [23:0] in Z, [23:8] in B1, [23:16] in B2, none in B3. -/
def reservedClear (f : Format) (w : Word) : Bool :=
  match f with
  | .z => w.extractLsb' 0 24 == 0#24
  | .b1 => w.extractLsb' 8 16 == 0#16
  | .b2 => w.extractLsb' 16 8 == 0#8
  | .b3 => true

/-- `Decode(w)`, total on the 32-bit words (R76). -/
def decode (w : Word) : Decoded :=
  match ofOpcode (opcode w) (lane w 0) (lane w 1) (lane w 2) with
  | none => .illegal .unlistedOpcode
  | some (f, i) => if reservedClear f w then .command i else .illegal .reservedBitSet

/-- The instruction the decoder reads from an instruction of the opcode table: one 32-bit word (R70), whose bits above
`nbits` are 0. -/
def decodeTableWord (nbits w : Nat) : Option Instr :=
  if nbits ≤ 32 then
    match decode (BitVec.ofNat 32 (w % 2 ^ nbits)) with
    | .command i => some i
    | .illegal _ => none
  else none

/-- The opcode of a command, the OPC column of R73. -/
def Instr.opcode : Instr → Byte
  | .nop => 0x00
  | .rstDef => 0x01
  | .ppBegin => 0x04
  | .ppAbs1 _ => 0x05
  | .ppAbs2 _ _ => 0x06
  | .ppAbs3 _ _ _ => 0x07
  | .ppEnd => 0x08
  | .add1 _ => 0x11
  | .add2 _ _ => 0x12
  | .add3 _ _ _ => 0x13
  | .drain1 => 0x21
  | .drain2 => 0x22
  | .drain3 => 0x23
  | .flush => 0x24
  | .rdStatus => 0x30
  | .rdSize => 0x31
  | .rdTotalLo => 0x32
  | .rdTotalHi => 0x33
  | .rdSeed i => 0x38 + BitVec.ofNat 8 i.val

/-- The word of a command, `{OPC, b2, b1, b0}` with absent bytes 0 (R71, R80). -/
def encode (i : Instr) : Word :=
  match i with
  | .ppAbs1 b0 | .add1 b0 => ofLanes i.opcode 0 0 b0
  | .ppAbs2 b0 b1 | .add2 b0 b1 => ofLanes i.opcode 0 b1 b0
  | .ppAbs3 b0 b1 b2 | .add3 b0 b1 b2 => ofLanes i.opcode b2 b1 b0
  | .nop | .rstDef | .ppBegin | .ppEnd | .drain1 | .drain2 | .drain3 | .flush
  | .rdStatus | .rdSize | .rdTotalLo | .rdTotalHi | .rdSeed _ => ofLanes i.opcode 0 0 0

/-- One row of the opcode map (R73): a word `w` is the command when `w & mask` is `pattern`. -/
structure OpcodeRow where
  mnemonic : Mnemonic
  format : Format
  pattern : Word
  mask : Word
  responds : Bool
deriving DecidableEq, Repr

/-- The opcode map of R73, row by row. -/
def opcodeTable : List OpcodeRow :=
  [ ⟨.NOP, .z, 0x00000000, 0xFFFFFFFF, false⟩,
    ⟨.RST_DEF, .z, 0x01000000, 0xFFFFFFFF, false⟩,
    ⟨.PP_BEGIN, .z, 0x04000000, 0xFFFFFFFF, false⟩,
    ⟨.PP_ABS1, .b1, 0x05000000, 0xFFFFFF00, false⟩,
    ⟨.PP_ABS2, .b2, 0x06000000, 0xFFFF0000, false⟩,
    ⟨.PP_ABS3, .b3, 0x07000000, 0xFF000000, false⟩,
    ⟨.PP_END, .z, 0x08000000, 0xFFFFFFFF, false⟩,
    ⟨.ADD1, .b1, 0x11000000, 0xFFFFFF00, false⟩,
    ⟨.ADD2, .b2, 0x12000000, 0xFFFF0000, false⟩,
    ⟨.ADD3, .b3, 0x13000000, 0xFF000000, false⟩ ] ++
  [ ⟨.DRAIN1, .z, 0x21000000, 0xFFFFFFFF, true⟩,
    ⟨.DRAIN2, .z, 0x22000000, 0xFFFFFFFF, true⟩,
    ⟨.DRAIN3, .z, 0x23000000, 0xFFFFFFFF, true⟩,
    ⟨.FLUSH, .z, 0x24000000, 0xFFFFFFFF, false⟩,
    ⟨.RD_STATUS, .z, 0x30000000, 0xFFFFFFFF, true⟩,
    ⟨.RD_SIZE, .z, 0x31000000, 0xFFFFFFFF, true⟩,
    ⟨.RD_TOTAL_LO, .z, 0x32000000, 0xFFFFFFFF, true⟩,
    ⟨.RD_TOTAL_HI, .z, 0x33000000, 0xFFFFFFFF, true⟩,
    ⟨.RD_SEED, .z, 0x38000000, 0xF8FFFFFF, true⟩ ]

/-- The word is an instance of the row. -/
def OpcodeRow.fits (r : OpcodeRow) (w : Word) : Bool := w &&& r.mask == r.pattern

/-- The command returns a response word: column 'responds' of R73, rule R74. -/
def Instr.responds : Instr → Bool
  | .drain1 | .drain2 | .drain3 | .rdStatus | .rdSize | .rdTotalLo | .rdTotalHi | .rdSeed _ => true
  | .nop | .rstDef | .ppBegin | .ppAbs1 _ | .ppAbs2 _ _ | .ppAbs3 _ _ _ | .ppEnd
  | .add1 _ | .add2 _ _ | .add3 _ _ _ | .flush => false

/-- The command a well-formed assembler line stands for (R80); `none` where the operand count does not fit. -/
def Line.command (l : Line) : Option Instr :=
  match l.mnemonic, l.operands with
  | .NOP, [] => some .nop
  | .RST_DEF, [] => some .rstDef
  | .PP_BEGIN, [] => some .ppBegin
  | .PP_ABS1, [a] => some (.ppAbs1 (BitVec.ofNat 8 a))
  | .PP_ABS2, [a, b] => some (.ppAbs2 (BitVec.ofNat 8 a) (BitVec.ofNat 8 b))
  | .PP_ABS3, [a, b, c] => some (.ppAbs3 (BitVec.ofNat 8 a) (BitVec.ofNat 8 b) (BitVec.ofNat 8 c))
  | .PP_END, [] => some .ppEnd
  | .ADD1, [a] => some (.add1 (BitVec.ofNat 8 a))
  | .ADD2, [a, b] => some (.add2 (BitVec.ofNat 8 a) (BitVec.ofNat 8 b))
  | .ADD3, [a, b, c] => some (.add3 (BitVec.ofNat 8 a) (BitVec.ofNat 8 b) (BitVec.ofNat 8 c))
  | .DRAIN1, [] => some .drain1
  | .DRAIN2, [] => some .drain2
  | .DRAIN3, [] => some .drain3
  | .FLUSH, [] => some .flush
  | .RD_STATUS, [] => some .rdStatus
  | .RD_SIZE, [] => some .rdSize
  | .RD_TOTAL_LO, [] => some .rdTotalLo
  | .RD_TOTAL_HI, [] => some .rdTotalHi
  | .RD_SEED, [k] => some (.rdSeed (Fin.ofNat 8 k))
  | _, _ => none

/-- Assembling a line: the word of its command, or no word where the line is not well formed (R80). -/
def assemble (l : Line) : Option Word :=
  if l.wellFormed then l.command.map encode else none

/-- The pseudo-instruction `ADD` (R81): ADD3 for whole triples, then ADD1 or ADD2 for the rest; nothing for no byte. -/
def expandAdd : List Byte → List Instr
  | a :: b :: c :: rest => .add3 a b c :: expandAdd rest
  | [a, b] => [.add2 a b]
  | [a] => [.add1 a]
  | [] => []

/-- The pseudo-instruction `ABSORB` (R81): the same expansion with PP_ABSn. -/
def expandAbsorb : List Byte → List Instr
  | a :: b :: c :: rest => .ppAbs3 a b c :: expandAbsorb rest
  | [a, b] => [.ppAbs2 a b]
  | [a] => [.ppAbs1 a]
  | [] => []

/-- The pseudo-instruction `PASSPHRASE` (R81). -/
def expandPassphrase (p : List Byte) : List Instr := .ppBegin :: expandAbsorb p ++ [.ppEnd]

/-- The pseudo-instruction `RESET` (R81). -/
def expandReset : List Instr := [.rstDef]

end Sys2Proof
end

