-- ==== Sys2Proof/Machine/Generator.lean ====
section
/-!
DEFINITION. The reference `GEN`: the minimal-standard generator with the rejection-sampled byte draw
(42_keystream_add.md R161-R165; the spec's own passages G2, G3).
-/
namespace Sys2Proof.Machine

/-- `GState` of the reference `GEN`: an integer in 1..2^31 − 2, held in 31 bits (R161). -/
abbrev LcgState := BitVec 31

/-- The modulus 2^31 − 1 (R161). -/
def lcgModulus : Nat := 2147483647

/-- `gseed(s)` (R162): `s mod (2^31 − 1)`, with 0 replaced by 1. -/
def lcgSeed (s : Word) : LcgState :=
  let x := s.toNat % lcgModulus
  if x = 0 then 1 else BitVec.ofNat 31 x

/-- `gstep(x) = (16807 · x) mod (2^31 − 1)` (R163). -/
def lcgStep (x : LcgState) : LcgState := BitVec.ofNat 31 (16807 * x.toNat % lcgModulus)

/-- A stepped state is accepted: `r = x − 1 < 2147483392` (R164). -/
def lcgAccepts (x : LcgState) : Bool := x.toNat - 1 < 2147483392

/-- The byte of an accepted state: `r div 8388607` with `r = x − 1` (R164). -/
def lcgByte (x : LcgState) : Byte := BitVec.ofNat 8 ((x.toNat - 1) / 8388607)

/-- The loop of R164, given at most `n + 1` passes; the last pass returns whatever it reached. By R165 two passes are
always enough, so the bound is never the reason a draw ends (log entry 9). -/
def lcgDrawLoop : Nat → LcgState → Byte × LcgState
  | 0, x => (lcgByte (lcgStep x), lcgStep x)
  | n + 1, x =>
    let x' := lcgStep x
    if lcgAccepts x' then (lcgByte x', x') else lcgDrawLoop n x'

/-- `gdraw(x)` (R164): one or two steps (R165). -/
def lcgDraw (x : LcgState) : Byte × LcgState := lcgDrawLoop 1 x

end Sys2Proof.Machine
end

