-- ==== Sys2Proof/Machine/Sha256.lean ====
section
/-!
DEFINITION. SHA-256, the reference `HASH` (40_seed_derivation.md R104-R111; the spec's own passage G1).
All word arithmetic is on 32-bit words modulo 2^32 (R104).
-/
namespace Sys2Proof.Machine

/-- The eight 32-bit words `H[0..7]` of a chaining value. -/
abbrev HashWords := Vector Word 8

/-- `ROTR(x, n)` taken at 32 bits (R105). -/
def rotr (x : Word) (n : Nat) : Word := (x >>> n) ||| (x <<< (32 - n))

/-- `SHR(x, n)` (R105). -/
def shr (x : Word) (n : Nat) : Word := x >>> n

/-- `Ch` (R105). -/
def shaCh (x y z : Word) : Word := (x &&& y) ^^^ (~~~x &&& z)

/-- `Maj` (R105). -/
def shaMaj (x y z : Word) : Word := (x &&& y) ^^^ (x &&& z) ^^^ (y &&& z)

/-- `Sigma0` (R105). -/
def bigSigma0 (x : Word) : Word := rotr x 2 ^^^ rotr x 13 ^^^ rotr x 22

/-- `Sigma1` (R105). -/
def bigSigma1 (x : Word) : Word := rotr x 6 ^^^ rotr x 11 ^^^ rotr x 25

/-- `sigma0` (R105). -/
def smallSigma0 (x : Word) : Word := rotr x 7 ^^^ rotr x 18 ^^^ shr x 3

/-- `sigma1` (R105). -/
def smallSigma1 (x : Word) : Word := rotr x 17 ^^^ rotr x 19 ^^^ shr x 10

/-- The round constants `K[0..63]` (R106), a table row of the spec on each line. -/
def shaK : List Word :=
  [0x428a2f98, 0x71374491, 0xb5c0fbcf, 0xe9b5dba5, 0x3956c25b, 0x59f111f1, 0x923f82a4, 0xab1c5ed5] ++
  [0xd807aa98, 0x12835b01, 0x243185be, 0x550c7dc3, 0x72be5d74, 0x80deb1fe, 0x9bdc06a7, 0xc19bf174] ++
  [0xe49b69c1, 0xefbe4786, 0x0fc19dc6, 0x240ca1cc, 0x2de92c6f, 0x4a7484aa, 0x5cb0a9dc, 0x76f988da] ++
  [0x983e5152, 0xa831c66d, 0xb00327c8, 0xbf597fc7, 0xc6e00bf3, 0xd5a79147, 0x06ca6351, 0x14292967] ++
  [0x27b70a85, 0x2e1b2138, 0x4d2c6dfc, 0x53380d13, 0x650a7354, 0x766a0abb, 0x81c2c92e, 0x92722c85] ++
  [0xa2bfe8a1, 0xa81a664b, 0xc24b8b70, 0xc76c51a3, 0xd192e819, 0xd6990624, 0xf40e3585, 0x106aa070] ++
  [0x19a4c116, 0x1e376c08, 0x2748774c, 0x34b0bcb5, 0x391c0cb3, 0x4ed8aa4a, 0x5b9cca4f, 0x682e6ff3] ++
  [0x748f82ee, 0x78a5636f, 0x84c87814, 0x8cc70208, 0x90befffa, 0xa4506ceb, 0xbef9a3f7, 0xc67178f2]

/-- The initial hash value `H0` (R108). -/
def shaH0 : HashWords :=
  #v[0x6a09e667, 0xbb67ae85, 0x3c6ef372, 0xa54ff53a, 0x510e527f, 0x9b05688c, 0x1f83d9ab, 0x5be0cd19]

/-- `k = (55 − L) mod 64`, the number of zero bytes of the padding (R107). -/
def shaZeros (len : Nat) : Nat := ((55 - (len : Int)) % 64).toNat

/-- The 64-bit bit length `8·L`, most significant byte first (R107). -/
def shaLengthBytes (len : Nat) : List Byte :=
  [7, 6, 5, 4, 3, 2, 1, 0].map fun j => (BitVec.ofNat 64 (8 * len)).extractLsb' (8 * j) 8

/-- What the padding appends to a message of `len` bytes (R107, steps 1 to 3). -/
def shaTail (len : Nat) : List Byte := 0x80 :: (List.replicate (shaZeros len) 0 ++ shaLengthBytes len)

/-- The padded message (R107). -/
def shaPad (msg : List Byte) : List Byte := msg ++ shaTail msg.length

/-- `B = (L + 8) div 64 + 1`, the number of blocks of the padded message (R107). -/
def shaBlockCount (len : Nat) : Nat := (len + 8) / 64 + 1

/-- The message words of a run of bytes, each big-endian (R107). -/
def shaWords : List Byte → List Word
  | a :: b :: c :: d :: rest => ofLanes a b c d :: shaWords rest
  | _ => []

/-- `W[t] <- sigma1(W[t-2]) + W[t-7] + sigma0(W[t-15]) + W[t-16]` (R109), `n` times, the latest word first in the list. -/
def shaExtend : Nat → List Word → List Word
  | 0, ws => ws
  | n + 1, ws =>
    shaExtend n
      ((smallSigma1 (ws.getD 1 0) + ws.getD 6 0 + smallSigma0 (ws.getD 14 0) + ws.getD 15 0) :: ws)

/-- The message schedule `W[0..63]` of a block's words (R109). -/
def shaSchedule (m : List Word) : List Word := (shaExtend 48 m.reverse).reverse

/-- The working variables `a .. h` of the compression (R110). -/
structure ShaVars where
  a : Word
  b : Word
  c : Word
  d : Word
  e : Word
  f : Word
  g : Word
  h : Word
deriving DecidableEq, Repr

/-- One round of the compression with its constant and schedule word (R110). -/
def shaRound (v : ShaVars) (k w : Word) : ShaVars :=
  let t1 := v.h + bigSigma1 v.e + shaCh v.e v.f v.g + k + w
  let t2 := bigSigma0 v.a + shaMaj v.a v.b v.c
  ⟨t1 + t2, v.a, v.b, v.c, v.d + t1, v.e, v.f, v.g⟩

/-- The 64 rounds, over the pairs `(K[t], W[t])` (R110). -/
def shaRounds : List (Word × Word) → ShaVars → ShaVars
  | [], v => v
  | (k, w) :: rest, v => shaRounds rest (shaRound v k w)

/-- `Compress(H, M)` (R110). -/
def shaCompress (h : HashWords) (m : List Word) : HashWords :=
  let v := shaRounds (shaK.zip (shaSchedule m)) ⟨h[0], h[1], h[2], h[3], h[4], h[5], h[6], h[7]⟩
  #v[h[0] + v.a, h[1] + v.b, h[2] + v.c, h[3] + v.d, h[4] + v.e, h[5] + v.f, h[6] + v.g, h[7] + v.h]

/-- The compression of the first `n` 64-byte blocks of a byte sequence, in order (R111). -/
def shaBlocks : Nat → List Byte → HashWords → HashWords
  | 0, _, h => h
  | n + 1, bytes, h => shaBlocks n (bytes.drop 64) (shaCompress h (shaWords (bytes.take 64)))

/-- The final word vector `H` of a message (R111). -/
def shaFinal (msg : List Byte) : HashWords := shaBlocks (shaBlockCount msg.length) (shaPad msg) shaH0

/-- The digest bytes of a word vector: `digest[4i + m] = H[i][31 − 8m : 24 − 8m]` (R111). -/
def shaDigest (h : HashWords) : Digest := Vector.ofFn fun k : Fin 32 => lane h[k.val / 4] (3 - k.val % 4)

/-- `SHA256(msg)` (R104, R111). A message of 2^61 bytes or more, which no passphrase reaches (R120), has its bit length
taken modulo 2^64 (DESIGN CHOICE, log entry 8). -/
def sha256 (msg : List Byte) : Digest := shaDigest (shaFinal msg)

end Sys2Proof.Machine
end

