-- ==== Sys2Proof/Machine/Reference.lean ====
section
/-!
DEFINITION. The reference configuration: the reference value of every parameter of 00_scope.md R9.
-/
namespace Sys2Proof.Machine

/-- The reference configuration (R9); `CURSOR_W` is 64. The default seeds stay free (R14). -/
def referenceParams : Params LcgState 64 where
  hash := sha256
  seedOrder := .littleEndian
  gseed := lcgSeed
  gdraw := lcgDraw
  bufDepth := 4096
  ppMaxBytes := 2 ^ 61 - 1
  defaultSeeds := Config.defaultSeeds

end Sys2Proof.Machine
end

