-- ==== Sys2Proof/Machine/State.lean ====
section
/-!
DEFINITION. The state of the core (10_state.md R22), the host's inputs still to come, and the state after reset (R39).
-/
namespace Sys2Proof.Machine

/-- One interaction of the host (60_exceptions.md R263). It lands between commands only (R63). -/
inductive HostInput where
  /-- The host offers a command word: `cmd_valid = 1`, `cmd_data = w` (R20), until the core accepts it. -/
  | command (w : Word)
  /-- The host raises `rsp_ready` and waits for one response, which it consumes (R20, R34). -/
  | consume
  /-- The host holds `rst_n = 0` for a rising edge of the clock (R280). -/
  | reset
deriving DecidableEq, Repr

namespace Any

/-- The architectural state, exactly that of R22, and two fields of the model's own, in a configuration whose `GEN` has the
state type `GState` and whose `CURSOR_W` is `cursorW` (R9, R10, R160). -/
structure State (GState : Type) (cursorW : Nat) where
  /-- `GEN[0..7]` (R23). -/
  gen : GenBank GState
  /-- `SEED[0..7]` (R24). -/
  seed : SeedSet
  /-- `CURSOR` (R25). -/
  cursor : Count cursorW
  /-- `BUF`, oldest byte first (R26). -/
  buf : List Byte
  /-- `MODE_PP` (R27). -/
  modePp : Bool
  /-- `PP_OPEN` (R28). -/
  ppOpen : Bool
  /-- `PP_MSG` (R29). -/
  ppMsg : List Byte
  /-- `ERR_ILL` (R32). -/
  errIll : Bool
  /-- `ERR_SEQ` (R32). -/
  errSeq : Bool
  /-- `ERR_OVF` (R32). -/
  errOvf : Bool
  /-- `ERR_PPLEN` (R32). -/
  errPplen : Bool
  /-- `TOTAL_HI_SNAP` (R33). -/
  totalHiSnap : Word
  /-- `RSP_PENDING` (R34). -/
  rspPending : Bool
  /-- `RSP_WORD` (R34). -/
  rspWord : Word
  /-- The model's own: how many draws of `DEFAULT_SEEDS` have been made; the number of the next one (R14; log entry 2). -/
  drawCount : Nat
  /-- The model's own: the host's interactions not yet served, first one first (R21, R263; log entry 1). -/
  host : List HostInput
deriving DecidableEq, Repr

end Any

/-- The state of the machine in the reference configuration: 31-bit generator states, a 64-bit cursor (R9, R25, R161). -/
abbrev State := Any.State LcgState 64

/-- No fault exists: 'The block stops nothing' (R253). The type has no constructor, so a step that faults cannot be
written; every error is a rejection, a next state with a sticky bit set (R252). -/
inductive Fault where
deriving DecidableEq, Repr

/-- No meaning refuses: every listed command has an effect (R250). -/
inductive Refusal where
  /-- Raised by nothing now: it would stand in `exec`'s arm of a command that had no meaning yet. Safe: the machine stops. -/
  | notModelled (mnemonic : String)
deriving DecidableEq, Repr

/-- The machine right after power-on reset (R39, R280): a default-mode session on the drawn seeds of draw 0.
`ppMsg` and `rspWord`, which R39 leaves unspecified, are `[]` and 0 (DESIGN CHOICE, log entries 3, 4); one draw has
been made and no host input is waiting (DESIGN CHOICE, log entries 2, 1). -/
def State.reset : State where
  gen := Vector.ofFn fun i => referenceParams.gseed (referenceParams.defaultSeeds 0)[i]
  seed := referenceParams.defaultSeeds 0
  cursor := 0
  buf := []
  modePp := false
  ppOpen := false
  ppMsg := []
  errIll := false
  errSeq := false
  errOvf := false
  errPplen := false
  totalHiSnap := 0
  rspPending := false
  rspWord := 0
  drawCount := 1
  host := []

end Sys2Proof.Machine
end

