-- ==== Sys2Proof/Machine/Flags.lean ====
section
/-!
DEFINITION. The sticky error bits (10_state.md R32; 60_exceptions.md R250) and the STATUS word computed from state (R35).
-/
namespace Sys2Proof.Machine

variable {G : Type} {W : Nat}

/-- The four errors (R250). -/
inductive CommandError where
  | ill
  | seq
  | ovf
  | pplen
deriving DecidableEq, Repr

/-- The error bit of an error (R32). -/
def errBit (s : Any.State G W) : CommandError → Bool
  | .ill => s.errIll
  | .seq => s.errSeq
  | .ovf => s.errOvf
  | .pplen => s.errPplen

/-- `E <- 1` (R252). A bit that is already 1 stays 1 (R254). -/
def setErrBit (e : CommandError) (s : Any.State G W) : Any.State G W :=
  match e with
  | .ill => { s with errIll := true }
  | .seq => { s with errSeq := true }
  | .ovf => { s with errOvf := true }
  | .pplen => { s with errPplen := true }

/-- All four error bits cleared together, as a session start does (R32, R141). -/
def clearErrBits (s : Any.State G W) : Any.State G W :=
  { s with errIll := false, errSeq := false, errOvf := false, errPplen := false }

/-- A flag as a field of one bit. -/
def flagBit (b : Bool) : BitVec 1 := BitVec.ofBool b

/-- `BUF_EMPTY` (R35, bit 0). -/
def bufEmpty (s : Any.State G W) : Bool := s.buf.length == 0

/-- `BUF_FULL` (R35, bit 1). -/
def bufFull (P : Params G W) (s : Any.State G W) : Bool := s.buf.length == P.bufDepth

/-- STATUS (R35): computed from state, reserved bits 7:4 and 31:12 zero. -/
def statusWord (P : Params G W) (s : Any.State G W) : Word :=
  (flagBit s.errPplen ++ flagBit s.errOvf ++ flagBit s.errSeq ++ flagBit s.errIll ++ 0#4 ++
    flagBit s.modePp ++ flagBit s.ppOpen ++ flagBit (bufFull P s) ++ flagBit (bufEmpty s)).setWidth 32

end Sys2Proof.Machine
end

