-- ==== Sys2Proof/Machine/Ops.lean ====
section
/-!
DEFINITION. The named operations every command is made of: rejection, the two byte stores, the generator bank with its
selector and combiner, the response channel, and the session start. Each takes the parameters of R9 it needs.
-/
namespace Sys2Proof.Machine

variable {G : Type} {W : Nat}

/-- `reject E` (60_exceptions.md R252), the one shared error operation: the error bit is set and nothing else changes; no
response, no saved state, no vector (R253). The order of the checks (R251) is the order of the callers' conditions. -/
def reject (e : CommandError) (s : Any.State G W) : Any.State G W := setErrBit e s

/-- `respond v` (00_scope.md R13; 10_state.md R34): the word stands on the response channel until the host consumes it. -/
def respond (v : Word) (s : Any.State G W) : Any.State G W := { s with rspPending := true, rspWord := v }

/-- The host consumes the pending response (R20, R34). The word left in `RSP_WORD` is not observable then (S2). -/
def consumeResponse (s : Any.State G W) : Any.State G W := { s with rspPending := false }

/-- `BufAppend(b)` (20_memory.md R52). The caller has checked the capacity (R171). -/
def bufAppend (b : Byte) (s : Any.State G W) : Any.State G W := { s with buf := s.buf ++ [b] }

/-- `BufPop()` (R53): the head byte and the state without it; `none` on an empty buffer, where no caller pops. -/
def bufPop (s : Any.State G W) : Option (Byte × Any.State G W) :=
  match s.buf with
  | [] => none
  | b :: rest => some (b, { s with buf := rest })

/-- `BufClear()` (R54). -/
def bufClear (s : Any.State G W) : Any.State G W := { s with buf := [] }

/-- `PpAppend(b)` (R56). -/
def ppAppend (s : Any.State G W) (b : Byte) : Any.State G W := { s with ppMsg := s.ppMsg ++ [b] }

/-- The round-robin selector (42_keystream_add.md R167): `CURSOR mod 8`, a pure function apart from the generators. -/
def selector (c : Count W) : Fin 8 := Fin.ofNat 8 c.toNat

/-- `(k, GEN[i]) <- gdraw(GEN[i])` (R166, R168): instance `i` alone is read and written. -/
def genDraw (P : Params G W) (i : Fin 8) (s : Any.State G W) : Byte × Any.State G W :=
  let r := P.gdraw s.gen[i]
  (r.1, { s with gen := s.gen.set i r.2 })

/-- `CURSOR <- (CURSOR + 1) mod 2^CURSOR_W` (R25, R168; 2^64 in the reference configuration). -/
def advanceCursor (s : Any.State G W) : Any.State G W := { s with cursor := s.cursor + 1 }

/-- `XorByte(b)` (R168): draw from the selected instance, append `b ^ k`, advance the cursor. -/
def xorByte (P : Params G W) (s : Any.State G W) (b : Byte) : Any.State G W :=
  let d := genDraw P (selector s.cursor) s
  advanceCursor (bufAppend (b ^^^ d.1) d.2)

/-- The add of ADD1-ADD3 (R171-R173): rejected as a whole where the bytes do not fit, else `XorByte` in lane order. Each
command checks the room for its own bytes alone, so a shorter add that fits is accepted after a longer one was rejected,
where R288 says that every later add of the chunk is rejected too (DESIGN CHOICE, log entry 20). An add at least as long is
rejected again until the buffer is drained, as R288 has it (`addBytes_again`). -/
def addBytes (P : Params G W) (bs : List Byte) (s : Any.State G W) : Any.State G W :=
  if s.buf.length + bs.length > P.bufDepth then reject .ovf s else bs.foldl (xorByte P) s

/-- The absorb of PP_ABS1-PP_ABS3 (40_seed_derivation.md R120-R122): the sequence check first, then the length (R251). -/
def absorbBytes (P : Params G W) (bs : List Byte) (s : Any.State G W) : Any.State G W :=
  if s.ppOpen = false then reject .seq s
  else if s.ppMsg.length + bs.length > P.ppMaxBytes then reject .pplen s
  else bs.foldl ppAppend s

/-- The popping loop of `Drain(n)` (43_drain.md R200): `count` more bytes, from lane `j` on, into the response `r`. -/
def drainLoop : (count j : Nat) → Word → Any.State G W → Word × Any.State G W
  | 0, _, r, s => (r, s)
  | count + 1, j, r, s =>
    match bufPop s with
    | none => (r, s)
    | some (b, s') => drainLoop count (j + 1) (r ||| inLane j b) s'

/-- `Drain(n)` (R200): pops `c = min(n, len(BUF))` bytes and responds in format RD. -/
def drain (n : Nat) (s : Any.State G W) : Any.State G W :=
  let c := min n s.buf.length
  let d := drainLoop c 0 (drainHeader c) s
  respond d.1 d.2

/-- `gseed` of each seed, in index order (R114, R141). -/
def seedBank (P : Params G W) (seeds : SeedSet) : GenBank G := Vector.ofFn fun i => P.gseed seeds[i]

/-- `SessionStart(s, mode)` (41_session_reset.md R141). `PP_OPEN` and `PP_MSG` are not touched. -/
def sessionStart (P : Params G W) (seeds : SeedSet) (mode : Bool) (s : Any.State G W) : Any.State G W :=
  clearErrBits
    { bufClear s with
      seed := seeds, gen := seedBank P seeds, cursor := 0, modePp := mode, totalHiSnap := 0 }

/-- A default-mode session start on a fresh draw of `DEFAULT_SEEDS` (R140, R142). -/
def defaultStart (P : Params G W) (s : Any.State G W) : Any.State G W :=
  { sessionStart P (P.defaultSeeds s.drawCount) false s with drawCount := s.drawCount + 1 }

/-- `PowerOnReset` (70_reset_and_hazards.md R280). `PP_MSG` and `RSP_WORD`, not specified there, become `[]` and 0
(DESIGN CHOICE, log entries 3, 4). The host's later inputs are the host's own and stay. -/
def powerOnReset (P : Params G W) (s : Any.State G W) : Any.State G W :=
  { defaultStart P s with ppOpen := false, ppMsg := [], rspPending := false, rspWord := 0 }

end Sys2Proof.Machine
end

