-- ==== Sys2Proof/Machine/Channel.lean ====
section
/-!
DEFINITION. The ports (10_state.md R20) and how the core serves the host's next input. A word offered while no response
is pending is accepted and performed; nothing is fetched (R21).
-/
namespace Sys2Proof.Machine

variable {G : Type} {W : Nat}

/-- `rst_n` as the host drives it (R20). -/
def rstN (s : Any.State G W) : Bool :=
  match s.host with
  | .reset :: _ => false
  | .command _ :: _ | .consume :: _ | [] => true

/-- `cmd_valid` as the host drives it (R20). -/
def cmdValid (s : Any.State G W) : Bool :=
  match s.host with
  | .command _ :: _ => true
  | .reset :: _ | .consume :: _ | [] => false

/-- `cmd_data` while `cmd_valid = 1` (R20). -/
def cmdData (s : Any.State G W) : Option Word :=
  match s.host with
  | .command w :: _ => some w
  | .reset :: _ | .consume :: _ | [] => none

/-- `rsp_ready` as the host drives it (R20). -/
def rspReady (s : Any.State G W) : Bool :=
  match s.host with
  | .consume :: _ => true
  | .reset :: _ | .command _ :: _ | [] => false

/-- `cmd_ready`: 0 in reset (R20, R280) and while a response is pending (R34). The cycles it may stay 0 besides are timing
(R281, R291; log entry 12). -/
def cmdReady (s : Any.State G W) : Bool := rstN s && !s.rspPending

/-- `rsp_valid`: `RSP_PENDING`, and 0 in reset (R20, R34). -/
def rspValid (s : Any.State G W) : Bool := rstN s && s.rspPending

/-- `rsp_data`: `RSP_WORD`, of meaning only while `rsp_valid = 1` (R34, S2). -/
def rspData (s : Any.State G W) : Word := s.rspWord

/-- The `status` port: STATUS as of the last completed command (R36; R20's 'rule R34' is R35, log entry 17). -/
def statusPort (P : Params G W) (s : Any.State G W) : Word := statusWord P s

/-- A command is accepted: `cmd_valid = 1` and `cmd_ready = 1` (R20). -/
def accepts (s : Any.State G W) : Bool := cmdValid s && cmdReady s

/-- A response is consumed: `rsp_valid = 1` and `rsp_ready = 1` (R20). -/
def consumes (s : Any.State G W) : Bool := rspValid s && rspReady s

/-- An accepted word is performed by its command's meaning, or rejected where it is illegal (R76, R250). -/
def acceptWord (run : Instr → Any.State G W → Host.Outcome (Any.State G W) Fault Refusal) (w : Word) (s : Any.State G W) :
    Host.Outcome (Any.State G W) Fault Refusal :=
  match decode w with
  | .command i => run i s
  | .illegal _ => .next (reject .ill s)

/-- One step of the core at the host's next input, with `run` the meanings of the commands. With no input the state holds
(R262). A word offered while a response is pending is not accepted (R34, R287), and a host that waits for a response when
none is pending waits on (R285): both hold the state (log entry 11). -/
def serve (P : Params G W) (run : Instr → Any.State G W → Host.Outcome (Any.State G W) Fault Refusal) (s : Any.State G W) :
    Host.Outcome (Any.State G W) Fault Refusal :=
  match s.host with
  | [] => .next s
  | .reset :: rest => .next (powerOnReset P { s with host := rest })
  | .consume :: rest => .next (if s.rspPending then consumeResponse { s with host := rest } else s)
  | .command w :: rest => if s.rspPending then .next s else acceptWord run w { s with host := rest }

/-- The host offers this word next, having consumed any response still pending (R263). -/
def offerWord (w : Word) (s : Any.State G W) : Any.State G W :=
  { s with host := .command w :: s.host, rspPending := false }

end Sys2Proof.Machine
end

