-- ==== Sys2Proof/Machine/Add.lean ====
section
/-!
DEFINITION. The add commands ADD1, ADD2, ADD3 (42_keystream_add.md R171-R173).
-/
namespace Sys2Proof.Machine

variable {G : Type} {W : Nat}

/-- ADD1 (R171). -/
def add1 (P : Params G W) (b0 : Byte) (s : Any.State G W) : Any.State G W := addBytes P [b0] s

/-- ADD2 (R172): `b0` takes the selected instance, `b1` the next one. -/
def add2 (P : Params G W) (b0 b1 : Byte) (s : Any.State G W) : Any.State G W := addBytes P [b0, b1] s

/-- ADD3 (R173). -/
def add3 (P : Params G W) (b0 b1 b2 : Byte) (s : Any.State G W) : Any.State G W := addBytes P [b0, b1, b2] s

/-- The meaning of ADD1. -/
def execAdd1 (b0 : Byte) (s : State) : Host.Outcome State Fault Refusal := .next (add1 referenceParams b0 s)

/-- The meaning of ADD2. -/
def execAdd2 (b0 b1 : Byte) (s : State) : Host.Outcome State Fault Refusal :=
  .next (add2 referenceParams b0 b1 s)

/-- The meaning of ADD3. -/
def execAdd3 (b0 b1 b2 : Byte) (s : State) : Host.Outcome State Fault Refusal :=
  .next (add3 referenceParams b0 b1 b2 s)

end Sys2Proof.Machine
end

