-- ==== Sys2Proof/Machine/Drain.lean ====
section
/-!
DEFINITION. The drain commands, FLUSH and the buffer and count readouts (43_drain.md R200-R216).
-/
namespace Sys2Proof.Machine

variable {G : Type} {W : Nat}

/-- DRAIN1 (R201). -/
def drain1 (s : Any.State G W) : Any.State G W := drain 1 s

/-- DRAIN2 (R202). -/
def drain2 (s : Any.State G W) : Any.State G W := drain 2 s

/-- DRAIN3 (R203). -/
def drain3 (s : Any.State G W) : Any.State G W := drain 3 s

/-- FLUSH (R208): the buffer is discarded; the cursor and the generators stay. -/
def flush (s : Any.State G W) : Any.State G W := bufClear s

/-- RD_SIZE (R210): `zext_32(len(BUF))`. -/
def rdSize (s : Any.State G W) : Any.State G W := respond (BitVec.ofNat 32 s.buf.length) s

/-- RD_TOTAL_LO (R212): the low half of the cursor, with the high half taken into the snapshot in the same step. -/
def rdTotalLo (s : Any.State G W) : Any.State G W := respond (countLo s.cursor) { s with totalHiSnap := countHi s.cursor }

/-- RD_TOTAL_HI (R215): the snapshot, not the cursor. -/
def rdTotalHi (s : Any.State G W) : Any.State G W := respond s.totalHiSnap s

/-- The meaning of DRAIN1. -/
def execDrain1 (s : State) : Host.Outcome State Fault Refusal := .next (drain1 s)

/-- The meaning of DRAIN2. -/
def execDrain2 (s : State) : Host.Outcome State Fault Refusal := .next (drain2 s)

/-- The meaning of DRAIN3. -/
def execDrain3 (s : State) : Host.Outcome State Fault Refusal := .next (drain3 s)

/-- The meaning of FLUSH. -/
def execFlush (s : State) : Host.Outcome State Fault Refusal := .next (flush s)

/-- The meaning of RD_SIZE. -/
def execRdSize (s : State) : Host.Outcome State Fault Refusal := .next (rdSize s)

/-- The meaning of RD_TOTAL_LO. -/
def execRdTotalLo (s : State) : Host.Outcome State Fault Refusal := .next (rdTotalLo s)

/-- The meaning of RD_TOTAL_HI. -/
def execRdTotalHi (s : State) : Host.Outcome State Fault Refusal := .next (rdTotalHi s)

end Sys2Proof.Machine
end

