-- ==== Sys2Proof/Machine/Passphrase.lean ====
section
/-!
DEFINITION. The passphrase commands PP_BEGIN, PP_ABS1, PP_ABS2, PP_ABS3 (40_seed_derivation.md R118-R122): each command's
effect for every configuration, and its meaning in the reference configuration.
-/
namespace Sys2Proof.Machine

variable {G : Type} {W : Nat}

/-- PP_BEGIN (R118): opens the passphrase and discards the bytes absorbed so far. -/
def ppBegin (s : Any.State G W) : Any.State G W := { s with ppOpen := true, ppMsg := [] }

/-- PP_ABS1 (R120). -/
def ppAbs1 (P : Params G W) (b0 : Byte) (s : Any.State G W) : Any.State G W := absorbBytes P [b0] s

/-- PP_ABS2 (R121): lane 0 is absorbed first. -/
def ppAbs2 (P : Params G W) (b0 b1 : Byte) (s : Any.State G W) : Any.State G W := absorbBytes P [b0, b1] s

/-- PP_ABS3 (R122). -/
def ppAbs3 (P : Params G W) (b0 b1 b2 : Byte) (s : Any.State G W) : Any.State G W := absorbBytes P [b0, b1, b2] s

/-- The meaning of PP_BEGIN. -/
def execPpBegin (s : State) : Host.Outcome State Fault Refusal := .next (ppBegin s)

/-- The meaning of PP_ABS1. -/
def execPpAbs1 (b0 : Byte) (s : State) : Host.Outcome State Fault Refusal :=
  .next (ppAbs1 referenceParams b0 s)

/-- The meaning of PP_ABS2. -/
def execPpAbs2 (b0 b1 : Byte) (s : State) : Host.Outcome State Fault Refusal :=
  .next (ppAbs2 referenceParams b0 b1 s)

/-- The meaning of PP_ABS3. -/
def execPpAbs3 (b0 b1 b2 : Byte) (s : State) : Host.Outcome State Fault Refusal :=
  .next (ppAbs3 referenceParams b0 b1 b2 s)

end Sys2Proof.Machine
end

