-- ==== Sys2Proof/Machine/Session.lean ====
section
/-!
DEFINITION. The session commands RST_DEF and PP_END (41_session_reset.md R140, R146).
-/
namespace Sys2Proof.Machine

variable {G : Type} {W : Nat}

/-- RST_DEF (R140): a default-mode session on drawn seeds; an open passphrase stays open (R289). -/
def rstDef (P : Params G W) (s : Any.State G W) : Any.State G W := defaultStart P s

/-- PP_END (R146): rejected with no passphrase open; else a session on the seeds derived from the passphrase.
`PP_MSG` keeps its bytes (DESIGN CHOICE, log entry 3). -/
def ppEnd (P : Params G W) (s : Any.State G W) : Any.State G W :=
  if s.ppOpen = false then reject .seq s
  else sessionStart P (derive P s.ppMsg) true { s with ppOpen := false }

/-- The meaning of RST_DEF. -/
def execRstDef (s : State) : Host.Outcome State Fault Refusal := .next (rstDef referenceParams s)

/-- The meaning of PP_END. -/
def execPpEnd (s : State) : Host.Outcome State Fault Refusal := .next (ppEnd referenceParams s)

end Sys2Proof.Machine
end

