-- ==== Sys2Proof/Machine/Status.lean ====
section
/-!
DEFINITION. NOP, the STATUS read and the seed readout (44_status_misc.md R230-R234).
-/
namespace Sys2Proof.Machine

variable {G : Type} {W : Nat}

/-- NOP (R230): 'nothing'. -/
def nop (s : Any.State G W) : Any.State G W := s

/-- RD_STATUS (R232): reading does not clear the sticky bits. -/
def rdStatus (P : Params G W) (s : Any.State G W) : Any.State G W := respond (statusWord P s) s

/-- RD_SEED `i` (R234). -/
def rdSeed (i : Fin 8) (s : Any.State G W) : Any.State G W := respond s.seed[i] s

/-- The meaning of NOP. -/
def execNop (s : State) : Host.Outcome State Fault Refusal := .next (nop s)

/-- The meaning of RD_STATUS. -/
def execRdStatus (s : State) : Host.Outcome State Fault Refusal := .next (rdStatus referenceParams s)

/-- The meaning of RD_SEED. -/
def execRdSeed (i : Fin 8) (s : State) : Host.Outcome State Fault Refusal := .next (rdSeed i s)

end Sys2Proof.Machine
end

