-- ==== Sys2Proof/Machine/Dispatch.lean ====
section
/-!
DEFINITION. One arm per command: the meaning of each in the reference configuration.
-/
namespace Sys2Proof.Machine

/-- Performing one accepted command (R4), in the reference configuration (R9). -/
def exec (i : Instr) (s : State) : Host.Outcome State Fault Refusal :=
  match i with
  | .nop => Sys2Proof.Machine.execNop s
  | .rstDef => Sys2Proof.Machine.execRstDef s
  | .ppBegin => Sys2Proof.Machine.execPpBegin s
  | .ppAbs1 b0 => Sys2Proof.Machine.execPpAbs1 b0 s
  | .ppAbs2 b0 b1 => Sys2Proof.Machine.execPpAbs2 b0 b1 s
  | .ppAbs3 b0 b1 b2 => Sys2Proof.Machine.execPpAbs3 b0 b1 b2 s
  | .ppEnd => Sys2Proof.Machine.execPpEnd s
  | .add1 b0 => Sys2Proof.Machine.execAdd1 b0 s
  | .add2 b0 b1 => Sys2Proof.Machine.execAdd2 b0 b1 s
  | .add3 b0 b1 b2 => Sys2Proof.Machine.execAdd3 b0 b1 b2 s
  | .drain1 => Sys2Proof.Machine.execDrain1 s
  | .drain2 => Sys2Proof.Machine.execDrain2 s
  | .drain3 => Sys2Proof.Machine.execDrain3 s
  | .flush => Sys2Proof.Machine.execFlush s
  | .rdStatus => Sys2Proof.Machine.execRdStatus s
  | .rdSize => Sys2Proof.Machine.execRdSize s
  | .rdTotalLo => Sys2Proof.Machine.execRdTotalLo s
  | .rdTotalHi => Sys2Proof.Machine.execRdTotalHi s
  | .rdSeed i0 => Sys2Proof.Machine.execRdSeed i0 s

end Sys2Proof.Machine
end

