-- ==== Sys2Proof/Machine/Perform.lean ====
section
/-!
DEFINITION. Performing a command, and a command word, in ANY configuration: the parameters of R9 are an argument
(00_scope.md R9, R10). `exec` is this function at the reference configuration (`exec_eq_perform` in Laws/Ops.lean).
-/
namespace Sys2Proof.Machine

variable {G : Type} {W : Nat}

/-- The effect of a command under the parameters `P` (R4, R10). -/
def perform (P : Params G W) (i : Instr) (s : Any.State G W) : Any.State G W :=
  match i with
  | .nop => nop s
  | .rstDef => rstDef P s
  | .ppBegin => ppBegin s
  | .ppAbs1 b0 => ppAbs1 P b0 s
  | .ppAbs2 b0 b1 => ppAbs2 P b0 b1 s
  | .ppAbs3 b0 b1 b2 => ppAbs3 P b0 b1 b2 s
  | .ppEnd => ppEnd P s
  | .add1 b0 => add1 P b0 s
  | .add2 b0 b1 => add2 P b0 b1 s
  | .add3 b0 b1 b2 => add3 P b0 b1 b2 s
  | .drain1 => drain1 s
  | .drain2 => drain2 s
  | .drain3 => drain3 s
  | .flush => flush s
  | .rdStatus => rdStatus P s
  | .rdSize => rdSize s
  | .rdTotalLo => rdTotalLo s
  | .rdTotalHi => rdTotalHi s
  | .rdSeed i => rdSeed i s

/-- The effect of an accepted command word: its command's, or the rejection of an illegal word (R76, R250). -/
def performWord (P : Params G W) (w : Word) (s : Any.State G W) : Any.State G W :=
  match decode w with
  | .command i => perform P i s
  | .illegal _ => reject .ill s

end Sys2Proof.Machine
end

