-- ==== Sys2Proof/Machine/Step.lean ====
section
/-!
DEFINITION. The step, in the reference configuration and in any, and the placing of the next command word.
-/
namespace Sys2Proof.Machine

variable {G : Type} {W : Nat}

/-- One step of the core in the reference configuration (R4, R9). -/
def step (s : State) : Host.Outcome State Fault Refusal := serve referenceParams exec s

/-- One step of the core under the parameters `P` (R10). -/
def stepAt (P : Params G W) (s : Any.State G W) : Host.Outcome (Any.State G W) Fault Refusal :=
  serve P (fun i t => .next (perform P i t)) s

/-- `s` with this command word offered next by the host: the block fetches nothing (R21), so the word goes to the command
channel (log entry 14). The word's bits above `nbits` are 0. -/
def State.withFetchWord (s : State) (nbits w : Nat) : State :=
  offerWord (BitVec.ofNat 32 (w % 2 ^ nbits)) s

end Sys2Proof.Machine
end

