-- ==== Sys2Proof/Machine/Assembler.lean ====
section
/-!
DEFINITION. The text of one assembler line (30_encoding.md R80): `MNEMONIC [operand {, operand}]`, with `;` starting a
comment; an operand is a decimal number, a `0x` hexadecimal number or a character literal. Blanks separate, letter case
matters, a line without a command is no error, and a character outside ASCII is one (DESIGN CHOICE, log entry 15). A line
is a list of characters.
-/
namespace Sys2Proof.Machine

/-- A mnemonic as it is written (R73). -/
def mnemonicText : Mnemonic → List Char
  | .NOP => ['N', 'O', 'P']
  | .RST_DEF => ['R', 'S', 'T', '_', 'D', 'E', 'F']
  | .PP_BEGIN => ['P', 'P', '_', 'B', 'E', 'G', 'I', 'N']
  | .PP_ABS1 => ['P', 'P', '_', 'A', 'B', 'S', '1']
  | .PP_ABS2 => ['P', 'P', '_', 'A', 'B', 'S', '2']
  | .PP_ABS3 => ['P', 'P', '_', 'A', 'B', 'S', '3']
  | .PP_END => ['P', 'P', '_', 'E', 'N', 'D']
  | .ADD1 => ['A', 'D', 'D', '1']
  | .ADD2 => ['A', 'D', 'D', '2']
  | .ADD3 => ['A', 'D', 'D', '3']
  | .DRAIN1 => ['D', 'R', 'A', 'I', 'N', '1']
  | .DRAIN2 => ['D', 'R', 'A', 'I', 'N', '2']
  | .DRAIN3 => ['D', 'R', 'A', 'I', 'N', '3']
  | .FLUSH => ['F', 'L', 'U', 'S', 'H']
  | .RD_STATUS => ['R', 'D', '_', 'S', 'T', 'A', 'T', 'U', 'S']
  | .RD_SIZE => ['R', 'D', '_', 'S', 'I', 'Z', 'E']
  | .RD_TOTAL_LO => ['R', 'D', '_', 'T', 'O', 'T', 'A', 'L', '_', 'L', 'O']
  | .RD_TOTAL_HI => ['R', 'D', '_', 'T', 'O', 'T', 'A', 'L', '_', 'H', 'I']
  | .RD_SEED => ['R', 'D', '_', 'S', 'E', 'E', 'D']

/-- The mnemonic a word of text names. -/
def readMnemonic (cs : List Char) : Option Mnemonic :=
  (opcodeTable.map OpcodeRow.mnemonic).find? fun m => mnemonicText m == cs

/-- The value of a digit, decimal or hexadecimal. -/
def digitValue (c : Char) : Option Nat :=
  let n := c.toNat
  if 48 ≤ n ∧ n ≤ 57 then some (n - 48)
  else if 97 ≤ n ∧ n ≤ 102 then some (n - 87)
  else if 65 ≤ n ∧ n ≤ 70 then some (n - 55)
  else none

/-- The number a run of digits writes in a base, after the digits read so far. -/
def readDigits (base : Nat) : Nat → List Char → Option Nat
  | acc, [] => some acc
  | acc, c :: cs =>
    match digitValue c with
    | some d => if d < base then readDigits base (acc * base + d) cs else none
    | none => none

/-- A decimal or `0x` hexadecimal number (R80). -/
def readNumber : List Char → Option Nat
  | [] => none
  | '0' :: 'x' :: c :: cs => readDigits 16 0 (c :: cs)
  | cs => readDigits 10 0 cs

/-- A piece of a line. -/
inductive AsmToken where
  | word (cs : List Char)
  | char (c : Char)
  | comma
deriving DecidableEq, Repr

/-- A finished word, if it has a character. -/
def endWord : List Char → List AsmToken
  | [] => []
  | cs => [.word cs]

/-- The pieces of a line, up to its comment; `acc` is the word being read. A character literal is read before anything else,
so `';'` is the literal and starts no comment, and it ends the word before it, so no blank is needed there (DESIGN CHOICE,
log entry 15). -/
def asmTokens : List Char → List Char → List AsmToken
  | [], acc => endWord acc
  | '\'' :: c :: '\'' :: rest, acc => endWord acc ++ .char c :: asmTokens rest []
  | c :: rest, acc =>
    if c = ';' then endWord acc
    else if c = ',' then endWord acc ++ .comma :: asmTokens rest []
    else if c = ' ' ∨ c = '\t' then endWord acc ++ asmTokens rest []
    else asmTokens rest (acc ++ [c])

/-- The number an operand writes: a number, or a character's ASCII code (R80). A character that has none is an assembly
error, and RD_SEED's index, for which R80 gives a range and no form, is written in any form a byte is (DESIGN CHOICE, log
entry 15). -/
def operandValue : AsmToken → Option Nat
  | .word cs => readNumber cs
  | .char c => if c.toNat < 128 then some c.toNat else none
  | .comma => none

/-- The operands of a line, separated by commas (R80). -/
def readOperands : List AsmToken → Option (List Nat)
  | [] => none
  | [t] => (operandValue t).map fun n => [n]
  | t :: .comma :: rest =>
    match operandValue t, readOperands rest with
    | some n, some ns => some (n :: ns)
    | _, _ => none
  | _ :: _ :: _ => none

/-- What a line of text is: a line of R80, no command at all (nothing but blanks and a comment), or neither. -/
inductive TextLine where
  | line (l : Line)
  | blank
  | error
deriving DecidableEq, Repr

/-- The line a text writes (R80). A line of text is a command's: a pseudo-instruction of R81 is no line of R80 here, and its
text is an assembly error (DESIGN CHOICE, log entry 15); its words are those of `expandAdd`, `expandAbsorb`,
`expandPassphrase` and `expandReset`, and `dump` is the host's loop. -/
def readLine (text : List Char) : TextLine :=
  match asmTokens text [] with
  | [] => .blank
  | .word m :: rest =>
    match readMnemonic m with
    | none => .error
    | some m =>
      match rest with
      | [] => .line ⟨m, []⟩
      | _ :: _ =>
        match readOperands rest with
        | some ns => .line ⟨m, ns⟩
        | none => .error
  | .char _ :: _ | .comma :: _ => .error

/-- The words a line of text assembles to, one for a command (R80); `none` on an assembly error. A line without a command
gives no word and is no error (DESIGN CHOICE, log entry 15). -/
def assembleText (text : List Char) : Option (List Word) :=
  match readLine text with
  | .line l => (assemble l).map fun w => [w]
  | .blank => some []
  | .error => none

/-- A command-stream program, 'one command per line' (R80): the words of its lines in order. If a line is an assembly error the
whole program gives no word (DESIGN CHOICE, log entry 15; R80 says it of the line alone). -/
def assembleProgram : List (List Char) → Option (List Word)
  | [] => some []
  | text :: rest =>
    match assembleText text, assembleProgram rest with
    | some ws, some more => some (ws ++ more)
    | _, _ => none

end Sys2Proof.Machine
end

