-- ==== Sys2Proof/Machine/IncrementalHash.lean ====
section
/-!
DEFINITION. The incremental hasher a hardware may hold instead of `PP_MSG` (10_state.md R31; 40_seed_derivation.md R123).
Its registers are not architectural (R22, R31), so State does not hold them; this is the machine of R123 on its own.
-/
namespace Sys2Proof.Machine

/-- The implementation registers of R31: `HV[0..7]`, `BLK` and the 61-bit `PP_LEN`. -/
structure HashRegs where
  hv : HashWords
  blk : List Byte
  ppLen : BitVec 61
deriving DecidableEq, Repr

/-- At PP_BEGIN (R123). -/
def hashBegin : HashRegs := ⟨shaH0, [], 0⟩

/-- For each absorbed byte (R123): a block that is full is compressed at once. -/
def hashAbsorb (r : HashRegs) (b : Byte) : HashRegs :=
  let blk := r.blk ++ [b]
  if blk.length = 64 then ⟨shaCompress r.hv (shaWords blk), [], r.ppLen + 1⟩
  else ⟨r.hv, blk, r.ppLen + 1⟩

/-- At PP_END (R123): the partial block is padded with the tail of R107 for `L = PP_LEN`, the one or two resulting blocks
are compressed, and the digest of R111 is given. -/
def hashFinish (r : HashRegs) : Digest :=
  let padded := r.blk ++ shaTail r.ppLen.toNat
  shaDigest (shaBlocks (padded.length / 64) padded r.hv)

end Sys2Proof.Machine
end

