-- ==== Sys2Proof/Machine/Keystream.lean ====
section
/-!
DEFINITION. The keystream of a session as the spec defines it, apart from the machine that produces it
(42_keystream_add.md R175; 10_state.md R40 (d)).
-/
namespace Sys2Proof.Machine

variable {G : Type} {W : Nat}

/-- `G_i(n)`: a generator state after `n` draws (R175). -/
def genAfter (P : Params G W) : Nat → G → G
  | 0, g => g
  | n + 1, g => (P.gdraw (genAfter P n g)).2

/-- `K_i(n)`: the byte of the draw that follows `n` draws (R175). -/
def drawAfter (P : Params G W) (n : Nat) (g : G) : Byte := (P.gdraw (genAfter P n g)).1

/-- `KS(p) = K_(p mod 8)(p div 8)` (R175), for the session on these seeds. -/
def keystream (P : Params G W) (seeds : SeedSet) (p : Nat) : Byte :=
  drawAfter P (p / 8) (P.gseed seeds[Fin.ofNat 8 p])

/-- The number of positions `q` with `0 ≤ q < p` and `q mod 8 = i` (R40 (d)). -/
def drawsBefore (p : Nat) (i : Fin 8) : Nat := ((List.range p).filter fun q => q % 8 == i.val).length

/-- The session of `s` has XORed `p` bytes: the cursor counts them modulo 2^`CURSOR_W` (R25), and instance `i` has had the draws
of the positions that select it since it was seeded (R40 (d)). -/
def AtPosition (P : Params G W) (s : Any.State G W) (p : Nat) : Prop :=
  s.cursor = BitVec.ofNat W p ∧ ∀ i : Fin 8, s.gen[i] = genAfter P (drawsBefore p i) (P.gseed s.seed[i])

end Sys2Proof.Machine
end

