-- ==== Sys2Proof/Machine/Transaction.lean ====
section
/-!
DEFINITION. Transactions and runs as the spec speaks of them (10_state.md R34; 60_exceptions.md R264): a command word, its
step and the consumption of its response are one transaction, and a run is a finite sequence of them. These are what the
rules about whole sessions (R147, R148, R176-R178, R213, R216, R218) are about.
-/
namespace Sys2Proof.Machine

variable {G : Type} {W : Nat}

/-- The host takes the response of a completed command, if there is one. -/
def takeResponse (s : Any.State G W) : Any.State G W × Option Word :=
  if s.rspPending then (consumeResponse s, some s.rspWord) else (s, none)

/-- One transaction: the word is performed and its response, if any, consumed (R34). Between transactions no response is
pending (R40 (b)). From a state with one pending, of which R264 does not speak, the word is performed all the same, and the
response taken is its own or, where it gives none, the pending one (DESIGN CHOICE, log entry 21). -/
def transact (P : Params G W) (w : Word) (s : Any.State G W) : Any.State G W × Option Word := takeResponse (performWord P w s)

/-- The bytes an add command carries, in lane order (R171-R173). -/
def addData : Instr → List Byte
  | .add1 b0 => [b0]
  | .add2 b0 b1 => [b0, b1]
  | .add3 b0 b1 b2 => [b0, b1, b2]
  | .nop | .rstDef | .ppBegin | .ppAbs1 _ | .ppAbs2 _ _ | .ppAbs3 _ _ _ | .ppEnd | .drain1 | .drain2 | .drain3
  | .flush | .rdStatus | .rdSize | .rdTotalLo | .rdTotalHi | .rdSeed _ => []

/-- The bytes an absorb command carries, in lane order (R120-R122). -/
def absorbData : Instr → List Byte
  | .ppAbs1 b0 => [b0]
  | .ppAbs2 b0 b1 => [b0, b1]
  | .ppAbs3 b0 b1 b2 => [b0, b1, b2]
  | .nop | .rstDef | .ppBegin | .ppEnd | .add1 _ | .add2 _ _ | .add3 _ _ _ | .drain1 | .drain2 | .drain3
  | .flush | .rdStatus | .rdSize | .rdTotalLo | .rdTotalHi | .rdSeed _ => []

/-- The input bytes the word adds in this state: its data if it is an add command that fits, else none (R171). -/
def inputOf (P : Params G W) (w : Word) (s : Any.State G W) : List Byte :=
  match decode w with
  | .command i => if s.buf.length + (addData i).length ≤ P.bufDepth then addData i else []
  | .illegal _ => []

/-- The bytes the word appends to the buffer in this state: what stands behind the bytes that stood there before. -/
def appendedBy (P : Params G W) (w : Word) (s : Any.State G W) : List Byte := (performWord P w s).buf.drop s.buf.length

/-- `cnt` of a drain response, bits [25:24] (R74). -/
def responseCount (r : Word) : Nat := (r.extractLsb' 24 2).toNat

/-- The bytes of a drain response: lanes `j < cnt`, oldest first (R74). -/
def responseBytes (r : Word) : List Byte := (List.range (responseCount r)).map (lane r)

/-- A drain command (R200). -/
def isDrain : Instr → Bool
  | .drain1 | .drain2 | .drain3 => true
  | .nop | .rstDef | .ppBegin | .ppAbs1 _ | .ppAbs2 _ _ | .ppAbs3 _ _ _ | .ppEnd | .add1 _ | .add2 _ _ | .add3 _ _ _
  | .flush | .rdStatus | .rdSize | .rdTotalLo | .rdTotalHi | .rdSeed _ => false

/-- The bytes the host gets from the transaction: those of the response of a drain command. -/
def drainedBy (P : Params G W) (w : Word) (s : Any.State G W) : List Byte :=
  match decode w, (transact P w s).2 with
  | .command i, some r => if isDrain i then responseBytes r else []
  | .command _, none => []
  | .illegal _, _ => []

/-- What a run of command words gives: its end state, the responses in order, the input bytes accepted, the bytes appended
to the buffer and the bytes drained. -/
structure Run (GState : Type) (cursorW : Nat) where
  final : Any.State GState cursorW
  responses : List (Option Word)
  added : List Byte
  appended : List Byte
  drained : List Byte
deriving DecidableEq, Repr

/-- The run of a sequence of command words from a state (R264); a response pending at its start is as `transact` has it
(DESIGN CHOICE, log entry 21). -/
def run (P : Params G W) : List Word → Any.State G W → Run G W
  | [], s => ⟨s, [], [], [], []⟩
  | w :: ws, s =>
    let t := transact P w s
    let r := run P ws t.1
    ⟨r.final, t.2 :: r.responses, inputOf P w s ++ r.added, appendedBy P w s ++ r.appended,
      drainedBy P w s ++ r.drained⟩

/-- The command starts a session in this state: RST_DEF, or a PP_END that succeeds (R27, R141). -/
def startsSession (i : Instr) (s : Any.State G W) : Bool :=
  match i with
  | .rstDef => true
  | .ppEnd => s.ppOpen
  | .nop | .ppBegin | .ppAbs1 _ | .ppAbs2 _ _ | .ppAbs3 _ _ _ | .add1 _ | .add2 _ _ | .add3 _ _ _
  | .drain1 | .drain2 | .drain3 | .flush | .rdStatus | .rdSize | .rdTotalLo | .rdTotalHi | .rdSeed _ => false

/-- The word starts no session in this state. -/
def keepsSession (w : Word) (s : Any.State G W) : Bool :=
  match decode w with
  | .command i => !startsSession i s
  | .illegal _ => true

/-- No word of the run starts a session: the run stays within the session it begins in. -/
def inSession (P : Params G W) : List Word → Any.State G W → Bool
  | [], _ => true
  | w :: ws, s => keepsSession w s && inSession P ws (transact P w s).1

/-- The word is no FLUSH (R177). -/
def notFlush (w : Word) : Bool := decode w != .command .flush

/-- The commands R148 speaks of: ADD1-ADD3, DRAIN1-DRAIN3, FLUSH and the reads. -/
def usesSessionOnly : Instr → Bool
  | .add1 _ | .add2 _ _ | .add3 _ _ _ | .drain1 | .drain2 | .drain3 | .flush
  | .rdStatus | .rdSize | .rdTotalLo | .rdTotalHi | .rdSeed _ => true
  | .nop | .rstDef | .ppBegin | .ppAbs1 _ | .ppAbs2 _ _ | .ppAbs3 _ _ _ | .ppEnd => false

/-- The host's loop of the pseudo-instruction `DUMP` (30_encoding.md R81): DRAIN3 until a response has `cnt < 3`, at most
`n` times; the state it leaves and the responses. -/
def dumpLoop (P : Params G W) : Nat → Any.State G W → Any.State G W × List Word
  | 0, s => (s, [])
  | n + 1, s =>
    match transact P (encode .drain3) s with
    | (t, none) => (t, [])
    | (t, some r) =>
      if responseCount r < 3 then (t, [r])
      else
        let q := dumpLoop P n t
        (q.1, r :: q.2)

/-- What `DUMP` gives: the state it leaves, the responses of its DRAIN3 commands, the bytes they returned and the total
(R81, R204). -/
structure Dump (GState : Type) (cursorW : Nat) where
  final : Any.State GState cursorW
  drains : List Word
  bytes : List Byte
  total : Option (BitVec 64)
deriving DecidableEq, Repr

/-- The 64-bit count `{hi, lo}` of the responses of RD_TOTAL_LO and RD_TOTAL_HI (R216). -/
def totalOf (lo hi : Option Word) : Option (BitVec 64) :=
  match lo, hi with
  | some l, some h => some (h ++ l)
  | _, _ => none

/-- The pseudo-instruction `DUMP` (R81): the loop of DRAIN3, then RD_TOTAL_LO, then RD_TOTAL_HI. Every DRAIN3 but the last
takes three bytes, so the loop ends before its bound. -/
def dump (P : Params G W) (s : Any.State G W) : Dump G W :=
  let q := dumpLoop P (s.buf.length + 1) s
  let lo := transact P (encode .rdTotalLo) q.1
  let hi := transact P (encode .rdTotalHi) lo.1
  ⟨hi.1, q.2, q.2.flatMap responseBytes, totalOf lo.2 hi.2⟩

end Sys2Proof.Machine
end

