-- ==== Sys2Proof/Safety.lean ====
section
/-!
DEFINITION. What counts as a safe run, in the terms the claims use: the invariants of 10_state.md R40, the rejections of
60_exceptions.md R250 and R251, a fresh session, and when two states show the host the same session.
-/
namespace Sys2Proof.Machine

variable {G : Type} {W : Nat}

/-- R40 (a), with the bound of R22 on the passphrase. -/
def StoresFit (P : Params G W) (s : Any.State G W) : Prop := s.buf.length ≤ P.bufDepth ∧ s.ppMsg.length ≤ P.ppMaxBytes

/-- R40 (d): the generators and the cursor are those of some number of bytes XORed since the session started. -/
def Positioned (P : Params G W) (s : Any.State G W) : Prop := ∃ p : Nat, AtPosition P s p

/-- R40 for any configuration. -/
def StateInv (P : Params G W) (s : Any.State G W) : Prop := StoresFit P s ∧ Positioned P s

/-- Every generator state of the reference `GEN` is in 1..2^31 − 2 (R161, R163). -/
def GensInRange (s : State) : Prop := ∀ i : Fin 8, 1 ≤ s.gen[i].toNat ∧ s.gen[i].toNat ≤ 2147483646

/-- The error that rejects a command once decoded, in the order of R251; `none` for a command that is performed. -/
def rejection (P : Params G W) (i : Instr) (s : Any.State G W) : Option CommandError :=
  match i with
  | .ppAbs1 _ | .ppAbs2 _ _ | .ppAbs3 _ _ _ =>
    if s.ppOpen = false then some .seq
    else if s.ppMsg.length + (absorbData i).length > P.ppMaxBytes then some .pplen else none
  | .ppEnd => if s.ppOpen = false then some .seq else none
  | .add1 _ | .add2 _ _ | .add3 _ _ _ =>
    if s.buf.length + (addData i).length > P.bufDepth then some .ovf else none
  | .nop | .rstDef | .ppBegin | .drain1 | .drain2 | .drain3 | .flush
  | .rdStatus | .rdSize | .rdTotalLo | .rdTotalHi | .rdSeed _ => none

/-- A session just started: no byte XORed, nothing buffered, each generator seeded from its seed (R141). -/
def Fresh (P : Params G W) (s : Any.State G W) : Prop := s.cursor = 0 ∧ s.buf = [] ∧ s.gen = seedBank P s.seed

/-- The session state R147 lists, and the two flags and the response channel the host can see, are equal. -/
def SameSession (s t : Any.State G W) : Prop :=
  s.seed = t.seed ∧ s.gen = t.gen ∧ s.cursor = t.cursor ∧ s.buf = t.buf ∧ s.modePp = t.modePp ∧
    s.totalHiSnap = t.totalHiSnap ∧ s.errIll = t.errIll ∧ s.errSeq = t.errSeq ∧ s.errOvf = t.errOvf ∧
    s.errPplen = t.errPplen ∧ s.ppOpen = t.ppOpen ∧ s.rspPending = t.rspPending

/-- No error bit is set: STATUS bits 8..11 are 0 (R264). -/
def Clean (s : Any.State G W) : Prop := ∀ e : CommandError, errBit s e = false

end Sys2Proof.Machine
end

