-- ==== Sys2Proof/Certificates/Slice0/Obligations.lean ====
section
/-!
DEFINITION. The statements for the provers, in the order of the spec: encoding, the command channel, one for each command,
rules over every command, the reference algorithms, invariants, whole sessions. `P` ranges over every configuration (R10),
with any state type `G` of `GEN` and any `CURSOR_W` `W`;
`exec` and `step` are the reference configuration (R9), where `BUF_DEPTH` is 4096, `PP_MAX_BYTES` is 2^61 − 1,
`SEED_ORDER` is little-endian, `HASH` is SHA-256 and `GEN` is the minimal-standard generator.
-/

open Sys2Proof Sys2Proof.Machine

/-! ### Encoding -/

/-- The decode corners of 95_test_vectors.md 2.7 and the examples of R77 and R80, which rest on R73 and R76. -/
def Obligations.ListedWordsDecodeAsTheSpecSays : Prop :=
  decode 0x00000000 = .command .nop ∧
  decode 0x04000000 = .command .ppBegin ∧
  decode 0x0779656B = .command (.ppAbs3 0x6B 0x65 0x79) ∧
  decode 0x13020100 = .command (.add3 0x00 0x01 0x02) ∧
  decode 0x1200FFFF = .command (.add2 0xFF 0xFF) ∧
  decode 0x11000001 = .command (.add1 0x01) ∧
  decode 0x22000000 = .command .drain2 ∧
  decode 0x38000000 = .command (.rdSeed 0) ∧
  decode 0x3B000000 = .command (.rdSeed 3) ∧
  decode 0x3F000000 = .command (.rdSeed 7) ∧
  decode 0x11000100 = .illegal .reservedBitSet ∧
  decode 0x05FFFFFF = .illegal .reservedBitSet ∧
  decode 0x12FF0000 = .illegal .reservedBitSet ∧
  decode 0x30000001 = .illegal .reservedBitSet ∧
  decode 0x34000000 = .illegal .unlistedOpcode ∧
  decode 0x10000000 = .illegal .unlistedOpcode ∧
  decode 0x25000000 = .illegal .unlistedOpcode

/-- The word R71 and R80 assemble for a command is the command R76 decodes. -/
def Obligations.DecodeInvertsEncode : Prop :=
  ∀ i : Instr, decode (encode i) = .command i

/-- A legal word is the only word of its command (R76, R77: no bit is ignored; D13). -/
def Obligations.EncodeInvertsDecode : Prop :=
  ∀ (w : Word) (i : Instr), decode w = .command i → encode i = w

/-- R73: a word is the command of a row exactly when it fits the row's match and mask; the rows are disjoint and cover every
legal word; and the 'responds' column is that of the row's commands. -/
def Obligations.AWordIsTheCommandWhoseRowItFits : Prop :=
  (∀ r ∈ opcodeTable, ∀ w : Word,
    w &&& r.mask = r.pattern ↔ ∃ i, decode w = .command i ∧ i.mnemonic = r.mnemonic) ∧
  (∀ (w : Word) (i : Instr), decode w = .command i → ∃! r, r ∈ opcodeTable ∧ w &&& r.mask = r.pattern) ∧
  (∀ r ∈ opcodeTable, ∀ i : Instr, i.mnemonic = r.mnemonic → i.responds = r.responds)

/-- R77: under a listed opcode, a word with a reserved bit of its format set is illegal, and any other is a command. -/
def Obligations.ReservedBitsMakeAWordIllegal : Prop :=
  (∀ r ∈ opcodeTable, ∀ w : Word, w &&& (r.mask &&& 0xFF000000) = r.pattern →
    if (match r.format with
        | .z => w &&& 0x00FFFFFF
        | .b1 => w &&& 0x00FFFF00
        | .b2 => w &&& 0x00FF0000
        | .b3 => 0) = 0
    then ∃ i, decode w = .command i ∧ i.mnemonic = r.mnemonic
    else decode w = .illegal .reservedBitSet) ∧
  decode 0x11000100 = .illegal .reservedBitSet ∧ decode 0x11000001 = .command (.add1 0x01)

/-- The opcode list of R78: exactly the words with one of these opcodes are illegal for their opcode, whatever their
operand bits. -/
def Obligations.UnlistedOpcodesAreIllegal : Prop :=
  ∀ w : Word, decode w = .illegal .unlistedOpcode ↔
    (w.toNat / 2 ^ 24 = 0x02 ∨ w.toNat / 2 ^ 24 = 0x03 ∨
      (0x09 ≤ w.toNat / 2 ^ 24 ∧ w.toNat / 2 ^ 24 ≤ 0x10) ∨ (0x14 ≤ w.toNat / 2 ^ 24 ∧ w.toNat / 2 ^ 24 ≤ 0x20) ∨
      (0x25 ≤ w.toNat / 2 ^ 24 ∧ w.toNat / 2 ^ 24 ≤ 0x2F) ∨ (0x34 ≤ w.toNat / 2 ^ 24 ∧ w.toNat / 2 ^ 24 ≤ 0x37) ∨
      0x40 ≤ w.toNat / 2 ^ 24)

/-- The count of R78: 20 words of format Z, 2 × 256 of B1, 2 × 65536 of B2 and 2 × 2^24 of B3 are legal. -/
def Obligations.LegalWordsNumber33686036 : Prop :=
  Nat.card { w : Word // ∃ i, decode w = .command i } = 33686036 ∧
  Nat.card { w : Word // ∃ why, decode w = .illegal why } = 4261281260

/-- R80: a command's line assembles to its word; a line assembles exactly when it is well formed; and the word of a line is
the word of the command with that line. -/
def Obligations.ALineAssemblesToItsCommandsWord : Prop :=
  (∀ i : Instr, assemble i.line = some (encode i)) ∧
  (∀ l : Line, (assemble l).isSome = l.wellFormed) ∧
  (∀ (l : Line) (w : Word), assemble l = some w → ∃ i, decode w = .command i ∧ i.line = l)

/-! ### The command channel -/

/-- A command word the host offers while no response is pending is performed by its command's meaning (R4, R20, R76); the
step takes the offer off the host's list and does nothing else. -/
def Obligations.StepPerformsTheDecodedCommand : Prop :=
  ∀ (s : State) (w : Word) (rest : List HostInput) (i : Instr),
    s.host = .command w :: rest → s.rspPending = false → decode w = .command i →
      step s = exec i { s with host := rest }

/-- An illegal word sets `ERR_ILL` and has no other effect (R76, R250, R252). -/
def Obligations.StepRejectsAnIllegalWord : Prop :=
  ∀ (s : State) (w : Word) (rest : List HostInput) (why : Illegal),
    s.host = .command w :: rest → s.rspPending = false → decode w = .illegal why →
      step s = .next { s with host := rest, errIll := true }

/-- R34: while a response is pending it is offered on the response port, no command is accepted, and its consumption ends
that. That consuming is a step of its own (log entry 10), that a word held back holds the whole state (log entry 11) and that
RSP_WORD keeps the consumed word (log entry 4) are the model's choices. -/
def Obligations.APendingResponseHoldsTheNextCommand : Prop :=
  ∀ (s : State) (rest : List HostInput), s.rspPending = true →
    (∀ w : Word, s.host = .command w :: rest →
      step s = .next s ∧ cmdReady s = false ∧ rspValid s = true ∧ rspData s = s.rspWord) ∧
    (s.host = .consume :: rest → step s = .next { s with rspPending := false, host := rest })

/-- R262: nothing but an accepted command, a consumed response or `rst_n` changes the state. That a vain wait holds the host's
list too is the model's choice (log entry 11). -/
def Obligations.NothingElseChangesTheState : Prop :=
  ∀ s : State, accepts s = false → consumes s = false → rstN s = true → step s = .next s

/-- R280: a reset at any time leads to a default-mode session on a fresh draw, with no passphrase open and no response
pending, and STATUS is `0x00000001` (R39). That the draw is numbered by `drawCount`, and that the reset is an input
of the host's list, are the model's choices (log entries 2, 1). -/
def Obligations.ResetInputReachesThePowerOnState : Prop :=
  ∀ (s : State) (rest : List HostInput), s.host = .reset :: rest →
    cmdReady s = false ∧ rspValid s = false ∧
    ∃ t, step s = .next t ∧ t.seed = Config.defaultSeeds s.drawCount ∧
      (∀ i : Fin 8, t.gen[i] = lcgSeed (Config.defaultSeeds s.drawCount)[i]) ∧
      t.cursor = 0 ∧ t.buf = [] ∧ t.modePp = false ∧ t.ppOpen = false ∧ Clean t ∧ t.totalHiSnap = 0 ∧
      t.rspPending = false ∧ statusPort referenceParams t = 0x00000001 ∧
      t.drawCount = s.drawCount + 1 ∧ t.host = rest

/-- R39: what power-on reset leaves, in the fields the spec gives a value. -/
def Obligations.ResetLeavesTheSpecifiedValues : Prop :=
  (∀ i : Fin 8, State.reset.gen[i] = lcgSeed State.reset.seed[i]) ∧
  State.reset.cursor = 0 ∧ State.reset.buf = [] ∧ State.reset.modePp = false ∧ State.reset.ppOpen = false ∧
  State.reset.errIll = false ∧ State.reset.errSeq = false ∧ State.reset.errOvf = false ∧
  State.reset.errPplen = false ∧ State.reset.totalHiSnap = 0 ∧ State.reset.rspPending = false ∧
  statusPort referenceParams State.reset = 0x00000001

/-- The word placed for the next step is the one the next step performs (the model's choice, log entry 14). -/
def Obligations.ThePlacedWordRunsNext : Prop :=
  ∀ (s : State) (w : Nat) (i : Instr), decodeTableWord 32 w = some i →
    step (s.withFetchWord 32 w) = exec i { s with rspPending := false }

/-- A responding command and the consumption of its response make the one transaction of R34, and no response is pending
after it (R40 (b)); the word consumed is the one the first step put on the channel. That they are two steps of the machine is
the model's choice (log entry 10). -/
def Obligations.TwoStepsMakeOneTransaction : Prop :=
  ∀ (s : State) (w : Word) (rest : List HostInput) (i : Instr),
    s.host = .command w :: .consume :: rest → s.rspPending = false → decode w = .command i → i.responds = true →
      ∃ t, step s = .next t ∧ t.rspPending = true ∧
        step t = .next (transact referenceParams w { s with host := rest }).1 ∧
        (transact referenceParams w { s with host := rest }).2 = some t.rspWord ∧
        (transact referenceParams w { s with host := rest }).1.rspPending = false

/-- Every command completes in one step (R4, R253), whatever the state. That `exec` and `step` are the machine in the
reference configuration of R9 is the model's choice (log entry 5). -/
def Obligations.EveryCommandCompletesInTheReferenceConfiguration : Prop :=
  (∀ (i : Instr) (s : State), exec i s = .next (perform referenceParams i s)) ∧
  (∀ s : State, step s = stepAt referenceParams s) ∧
  (∀ (G : Type) (W : Nat) (P : Params G W) (s : Any.State G W), ∃ t, stepAt P s = .next t)

/-! ### One for each command -/

/-- R230. -/
def Obligations.NopChangesNothing : Prop :=
  decode 0x00000000 = .command .nop ∧
  (∀ w : Word, w ≠ 0x00000000 → decode w ≠ .command .nop) ∧
  (∀ s : State, exec .nop s = .next s)

/-- R140, with the effect of R141. That the draw is numbered by `drawCount` is the model's choice (log entry 2): the
statement holds for every draw. -/
def Obligations.RstDefStartsADefaultSession : Prop :=
  decode 0x01000000 = .command .rstDef ∧
  ∀ s : State, ∃ t, exec .rstDef s = .next t ∧
    t = { s with
          seed := Config.defaultSeeds s.drawCount,
          gen := Vector.ofFn fun i => lcgSeed (Config.defaultSeeds s.drawCount)[i],
          cursor := 0, buf := [], modePp := false, totalHiSnap := 0,
          errIll := false, errSeq := false, errOvf := false, errPplen := false,
          drawCount := s.drawCount + 1 } ∧
    statusPort referenceParams t = if s.ppOpen then 0x00000005 else 0x00000001

/-- R118. -/
def Obligations.PpBeginOpensAnEmptyPassphrase : Prop :=
  decode 0x04000000 = .command .ppBegin ∧
  ∀ s : State, exec .ppBegin s = .next { s with ppOpen := true, ppMsg := [] } ∧
    (statusPort referenceParams { s with ppOpen := true, ppMsg := [] }).getLsbD 2 = true

/-- R120. -/
def Obligations.PpAbs1AppendsOneByte : Prop :=
  ∀ (b0 : Byte) (s : State),
    decode (ofLanes 0x05 0 0 b0) = .command (.ppAbs1 b0) ∧
    exec (.ppAbs1 b0) s = .next
      (if s.ppOpen = false then { s with errSeq := true }
       else if s.ppMsg.length + 1 > 2 ^ 61 - 1 then { s with errPplen := true }
       else { s with ppMsg := s.ppMsg ++ [b0] })

/-- R121. -/
def Obligations.PpAbs2AppendsTwoBytesOrNone : Prop :=
  ∀ (b0 b1 : Byte) (s : State),
    decode (ofLanes 0x06 0 b1 b0) = .command (.ppAbs2 b0 b1) ∧
    exec (.ppAbs2 b0 b1) s = .next
      (if s.ppOpen = false then { s with errSeq := true }
       else if s.ppMsg.length + 2 > 2 ^ 61 - 1 then { s with errPplen := true }
       else { s with ppMsg := s.ppMsg ++ [b0, b1] })

/-- R122. -/
def Obligations.PpAbs3AppendsThreeBytesOrNone : Prop :=
  ∀ (b0 b1 b2 : Byte) (s : State),
    decode (ofLanes 0x07 b2 b1 b0) = .command (.ppAbs3 b0 b1 b2) ∧
    exec (.ppAbs3 b0 b1 b2) s = .next
      (if s.ppOpen = false then { s with errSeq := true }
       else if s.ppMsg.length + 3 > 2 ^ 61 - 1 then { s with errPplen := true }
       else { s with ppMsg := s.ppMsg ++ [b0, b1, b2] })

/-- R146, with the effect of R141: an accepted PP_END, and a rejected one. -/
def Obligations.PpEndStartsThePassphraseSession : Prop :=
  decode 0x08000000 = .command .ppEnd ∧
  (∀ s : State, s.ppOpen = true → ∃ t, exec .ppEnd s = .next t ∧
    t = { s with
          seed := slice .littleEndian (sha256 s.ppMsg),
          gen := Vector.ofFn fun i => lcgSeed (slice .littleEndian (sha256 s.ppMsg))[i],
          cursor := 0, buf := [], modePp := true, ppOpen := false, totalHiSnap := 0,
          errIll := false, errSeq := false, errOvf := false, errPplen := false } ∧
    statusPort referenceParams t = 0x00000009) ∧
  (∀ s : State, s.ppOpen = false → exec .ppEnd s = .next { s with errSeq := true })

/-- R171: one byte, combined with the draw of instance `CURSOR mod 8`; nothing but `ERR_OVF` when the buffer is full. -/
def Obligations.Add1CombinesOneByte : Prop :=
  ∀ (b0 : Byte) (s : State) (i0 : Fin 8), i0.val = s.cursor.toNat % 8 →
    decode (ofLanes 0x11 0 0 b0) = .command (.add1 b0) ∧
    exec (.add1 b0) s = .next
      (if s.buf.length + 1 > 4096 then { s with errOvf := true }
       else { s with
              gen := s.gen.set i0 (lcgDraw s.gen[i0]).2,
              cursor := BitVec.ofNat 64 (s.cursor.toNat + 1),
              buf := s.buf ++ [b0 ^^^ (lcgDraw s.gen[i0]).1] })

/-- R172: two bytes, the second with the next instance (7 is followed by 0), or neither. -/
def Obligations.Add2CombinesTwoBytesOrNone : Prop :=
  ∀ (b0 b1 : Byte) (s : State) (i0 i1 : Fin 8),
    i0.val = s.cursor.toNat % 8 → i1.val = (s.cursor.toNat + 1) % 8 →
    decode (ofLanes 0x12 0 b1 b0) = .command (.add2 b0 b1) ∧
    exec (.add2 b0 b1) s = .next
      (if s.buf.length + 2 > 4096 then { s with errOvf := true }
       else { s with
              gen := (s.gen.set i0 (lcgDraw s.gen[i0]).2).set i1 (lcgDraw s.gen[i1]).2,
              cursor := BitVec.ofNat 64 (s.cursor.toNat + 2),
              buf := s.buf ++ [b0 ^^^ (lcgDraw s.gen[i0]).1, b1 ^^^ (lcgDraw s.gen[i1]).1] })

/-- R173: three bytes with three instances, or none. -/
def Obligations.Add3CombinesThreeBytesOrNone : Prop :=
  ∀ (b0 b1 b2 : Byte) (s : State) (i0 i1 i2 : Fin 8),
    i0.val = s.cursor.toNat % 8 → i1.val = (s.cursor.toNat + 1) % 8 → i2.val = (s.cursor.toNat + 2) % 8 →
    decode (ofLanes 0x13 b2 b1 b0) = .command (.add3 b0 b1 b2) ∧
    exec (.add3 b0 b1 b2) s = .next
      (if s.buf.length + 3 > 4096 then { s with errOvf := true }
       else { s with
              gen := ((s.gen.set i0 (lcgDraw s.gen[i0]).2).set i1 (lcgDraw s.gen[i1]).2).set i2
                (lcgDraw s.gen[i2]).2,
              cursor := BitVec.ofNat 64 (s.cursor.toNat + 3),
              buf := s.buf ++
                [b0 ^^^ (lcgDraw s.gen[i0]).1, b1 ^^^ (lcgDraw s.gen[i1]).1, b2 ^^^ (lcgDraw s.gen[i2]).1] })

/-- R200 to R203: DRAIN1, DRAIN2 and DRAIN3 pop the oldest `min(n, len(BUF))` bytes and answer them in format RD (R74):
the count in bits [25:24], lane `j` the `j`-th oldest byte, zero in the other lanes and bits; nothing else changes. -/
def Obligations.DrainAnswersTheOldestBytes : Prop :=
  decode 0x21000000 = .command .drain1 ∧ decode 0x22000000 = .command .drain2 ∧
  decode 0x23000000 = .command .drain3 ∧
  ∀ (s : State) (i : Instr) (n : Nat), (i, n) ∈ [(Instr.drain1, 1), (Instr.drain2, 2), (Instr.drain3, 3)] →
    ∃ r : Word,
      exec i s = .next { s with buf := s.buf.drop n, rspPending := true, rspWord := r } ∧
      r.toNat / 2 ^ 24 = min n s.buf.length ∧
      (∀ j : Nat, j < n → lane r j = s.buf.getD j 0) ∧
      (∀ j : Nat, n ≤ j → j < 3 → lane r j = 0)

/-- R208. -/
def Obligations.FlushEmptiesTheBufferAlone : Prop :=
  decode 0x24000000 = .command .flush ∧
  ∀ s : State, exec .flush s = .next { s with buf := [] } ∧
    bufEmpty { s with buf := [] } = true ∧ bufFull referenceParams { s with buf := [] } = false

/-- R232. -/
def Obligations.RdStatusAnswersStatus : Prop :=
  decode 0x30000000 = .command .rdStatus ∧
  ∀ s : State, ∃ t, exec .rdStatus s = .next t ∧
    t = { s with rspPending := true, rspWord := statusPort referenceParams s } ∧
    statusPort referenceParams t = statusPort referenceParams s

/-- R210. -/
def Obligations.RdSizeAnswersTheBufferLength : Prop :=
  decode 0x31000000 = .command .rdSize ∧
  ∀ s : State, ∃ r : Word,
    exec .rdSize s = .next { s with rspPending := true, rspWord := r } ∧
    (s.buf.length ≤ 4096 → r.toNat = s.buf.length)

/-- R212. -/
def Obligations.RdTotalLoAnswersTheLowHalfAndKeepsTheHigh : Prop :=
  decode 0x32000000 = .command .rdTotalLo ∧
  ∀ s : State, ∃ hi lo : Word,
    exec .rdTotalLo s = .next { s with totalHiSnap := hi, rspPending := true, rspWord := lo } ∧
    hi.toNat = s.cursor.toNat / 2 ^ 32 ∧ lo.toNat = s.cursor.toNat % 2 ^ 32 ∧
    hi.toNat * 2 ^ 32 + lo.toNat = s.cursor.toNat

/-- R215. -/
def Obligations.RdTotalHiAnswersTheSnapshot : Prop :=
  decode 0x33000000 = .command .rdTotalHi ∧
  ∀ s : State, exec .rdTotalHi s = .next { s with rspPending := true, rspWord := s.totalHiSnap }

/-- R234. -/
def Obligations.RdSeedAnswersTheSeed : Prop :=
  ∀ (i : Fin 8) (s : State),
    decode (BitVec.ofNat 32 (0x38000000 + i.val * 2 ^ 24)) = .command (.rdSeed i) ∧
    exec (.rdSeed i) s = .next { s with rspPending := true, rspWord := s.seed[i] }

/-! ### Rules over every command -/

/-- R251 and R252: an illegal word is rejected with `ERR_ILL` before anything else is looked at; of a decoded command the
first check that fails decides; its bit alone is set, and no other state changes. -/
def Obligations.ARejectedCommandSetsOneBitAndNothingElse : Prop :=
  (∀ (G : Type) (W : Nat) (P : Params G W) (w : Word) (s : Any.State G W) (why : Illegal), decode w = .illegal why →
    performWord P w s = { s with errIll := true }) ∧
  ∀ (G : Type) (W : Nat) (P : Params G W) (i : Instr) (s : Any.State G W) (e : CommandError),
    rejection P i s = some e →
    (∀ d : CommandError, errBit (perform P i s) d = (errBit s d || decide (d = e))) ∧
    { perform P i s with
      errIll := s.errIll, errSeq := s.errSeq, errOvf := s.errOvf, errPplen := s.errPplen } = s

/-- R32, and so R37 and R254: an error bit is set by a word rejected with that error, cleared by a session start, and kept
by every other command. -/
def Obligations.ErrorBitsAreStickyUntilASessionStart : Prop :=
  (∀ (G : Type) (W : Nat) (P : Params G W) (i : Instr) (s : Any.State G W) (d : CommandError),
    errBit (perform P i s) d =
      (!startsSession i s && (errBit s d || decide (rejection P i s = some d)))) ∧
  (∀ (G : Type) (W : Nat) (P : Params G W) (w : Word) (s : Any.State G W) (d : CommandError) (why : Illegal),
    decode w = .illegal why → errBit (performWord P w s) d = (errBit s d || decide (d = .ill))) ∧
  (∀ (G : Type) (W : Nat) (P : Params G W) (s : Any.State G W) (d : CommandError), errBit (powerOnReset P s) d = false)

/-- The writers of each piece of state (R23 to R27, R29, R32 to R34): a command that is none of them leaves it. The clauses
on `drawCount` and `host` are about the model's own fields (log entries 2, 1). -/
def Obligations.EachElementIsWrittenByItsOwnCommandsOnly : Prop :=
  ∀ (G : Type) (W : Nat) (P : Params G W) (i : Instr) (s : Any.State G W),
    (startsSession i s = false → (perform P i s).seed = s.seed ∧ (perform P i s).modePp = s.modePp) ∧
    (startsSession i s = false → addData i = [] →
      (perform P i s).gen = s.gen ∧ (perform P i s).cursor = s.cursor) ∧
    (startsSession i s = false → addData i = [] → isDrain i = false → i ≠ .flush → (perform P i s).buf = s.buf) ∧
    (startsSession i s = false → rejection P i s = none →
      (perform P i s).errIll = s.errIll ∧ (perform P i s).errSeq = s.errSeq ∧
      (perform P i s).errOvf = s.errOvf ∧ (perform P i s).errPplen = s.errPplen) ∧
    (startsSession i s = false → i ≠ .rdTotalLo → (perform P i s).totalHiSnap = s.totalHiSnap) ∧
    (i ≠ .ppBegin → i ≠ .ppEnd → (perform P i s).ppOpen = s.ppOpen) ∧
    (i ≠ .ppBegin → absorbData i = [] → (perform P i s).ppMsg = s.ppMsg) ∧
    (i.responds = false → (perform P i s).rspPending = s.rspPending ∧ (perform P i s).rspWord = s.rspWord) ∧
    (i ≠ .rstDef → (perform P i s).drawCount = s.drawCount) ∧
    (perform P i s).host = s.host

/-- R30: a passphrase command before PP_END changes no session state, a session command changes no hasher state, and a
rejected PP_END changes neither; and what a command other than PP_END leaves in the session does not depend on the hasher. -/
def Obligations.HasherAndSessionAreIndependent : Prop :=
  ∀ (G : Type) (W : Nat) (P : Params G W) (i : Instr) (s : Any.State G W),
    (i = .ppBegin ∨ absorbData i ≠ [] →
      (perform P i s).gen = s.gen ∧ (perform P i s).seed = s.seed ∧ (perform P i s).cursor = s.cursor ∧
      (perform P i s).buf = s.buf ∧ (perform P i s).modePp = s.modePp) ∧
    (i = .rstDef ∨ addData i ≠ [] ∨ isDrain i = true ∨ i = .flush →
      (perform P i s).ppOpen = s.ppOpen ∧ (perform P i s).ppMsg = s.ppMsg) ∧
    (s.ppOpen = false → perform P .ppEnd s = { s with errSeq := true }) ∧
    (i ≠ .ppEnd → ∀ (o : Bool) (m : List Byte),
      (perform P i { s with ppOpen := o, ppMsg := m }).gen = (perform P i s).gen ∧
      (perform P i { s with ppOpen := o, ppMsg := m }).seed = (perform P i s).seed ∧
      (perform P i { s with ppOpen := o, ppMsg := m }).cursor = (perform P i s).cursor ∧
      (perform P i { s with ppOpen := o, ppMsg := m }).buf = (perform P i s).buf ∧
      (perform P i { s with ppOpen := o, ppMsg := m }).modePp = (perform P i s).modePp)

/-- R74 and column 'responds' of R73: a responding command leaves a response pending, every other command, rejected or
not, and every illegal word leaves the channel as it was. -/
def Obligations.ExactlyTheRespondingCommandsRespond : Prop :=
  (∀ (G : Type) (W : Nat) (P : Params G W) (i : Instr) (s : Any.State G W),
    (perform P i s).rspPending = (s.rspPending || i.responds)) ∧
  (∀ (G : Type) (W : Nat) (P : Params G W) (w : Word) (s : Any.State G W), s.rspPending = false →
    ((transact P w s).2.isSome = true ↔ ∃ i, decode w = .command i ∧ i.responds = true))

/-- R51: bytes leave the buffer only from its head, by a drain, or all at once; an add puts bytes behind those that are
there. -/
def Obligations.TheBufferIsAQueue : Prop :=
  ∀ (G : Type) (W : Nat) (P : Params G W) (i : Instr) (s : Any.State G W),
    ((i = .flush ∨ startsSession i s = true) → (perform P i s).buf = []) ∧
    (i ≠ .flush → startsSession i s = false → ∃ (k : Nat) (out : List Byte),
      k ≤ s.buf.length ∧ (perform P i s).buf = s.buf.drop k ++ out ∧
      (isDrain i = false → k = 0) ∧ (addData i = [] → out = []) ∧ out.length ≤ (addData i).length)

/-- R35: each bit of STATUS, `BUF_EMPTY` and `BUF_FULL` never together, and the two ways to see it. -/
def Obligations.StatusFieldsAreComputedFromState : Prop :=
  ∀ (G : Type) (W : Nat) (P : Params G W) (s : Any.State G W),
    (statusWord P s).getLsbD 0 = decide (s.buf.length = 0) ∧
    (statusWord P s).getLsbD 1 = decide (s.buf.length = P.bufDepth) ∧
    (statusWord P s).getLsbD 2 = s.ppOpen ∧ (statusWord P s).getLsbD 3 = s.modePp ∧
    (statusWord P s).getLsbD 8 = s.errIll ∧ (statusWord P s).getLsbD 9 = s.errSeq ∧
    (statusWord P s).getLsbD 10 = s.errOvf ∧ (statusWord P s).getLsbD 11 = s.errPplen ∧
    (∀ k : Nat, (4 ≤ k ∧ k ≤ 7) ∨ 12 ≤ k → (statusWord P s).getLsbD k = false) ∧
    (P.Valid → ¬ ((statusWord P s).getLsbD 0 = true ∧ (statusWord P s).getLsbD 1 = true)) ∧
    statusPort P s = statusWord P s ∧ (perform P .rdStatus s).rspWord = statusWord P s

/-! ### The reference algorithms -/

/-- R162 and R163: the seeding and the step keep the generator in 1..2^31 − 2, and R143: every such state is the seeding of
some seed. -/
def Obligations.TheGeneratorStaysInItsRange : Prop :=
  (∀ s : Word, 1 ≤ (lcgSeed s).toNat ∧ (lcgSeed s).toNat ≤ 2147483646) ∧
  (∀ x : LcgState, 1 ≤ x.toNat → x.toNat ≤ 2147483646 →
    (lcgStep x).toNat = 16807 * x.toNat % 2147483647 ∧ 1 ≤ (lcgStep x).toNat ∧
    (lcgStep x).toNat ≤ 2147483646) ∧
  (∀ x : LcgState, 1 ≤ x.toNat → x.toNat ≤ 2147483646 → lcgSeed (BitVec.ofNat 32 x.toNat) = x)

/-- R164 and R165: a draw is the first accepted step, which is the first or the second; more passes of the loop change
nothing. -/
def Obligations.ADrawTakesOneOrTwoSteps : Prop :=
  ∀ x : LcgState, 1 ≤ x.toNat → x.toNat ≤ 2147483646 →
    (∃ y : LcgState,
      (y = lcgStep x ∨ (y = lcgStep (lcgStep x) ∧ 2147483392 ≤ (lcgStep x).toNat - 1)) ∧
      y.toNat - 1 < 2147483392 ∧
      (lcgDraw x).2 = y ∧ (lcgDraw x).1.toNat = (y.toNat - 1) / 8388607) ∧
    (∀ n : Nat, 1 ≤ n → lcgDrawLoop n x = lcgDraw x)

/-- R112: the published check values, each as the eight words `H[0..7]`. -/
def Obligations.Sha256MeetsItsCheckValues : Prop :=
  shaFinal [] = #v[0xe3b0c442, 0x98fc1c14, 0x9afbf4c8, 0x996fb924, 0x27ae41e4, 0x649b934c, 0xa495991b, 0x7852b855] ∧
  shaFinal [0x61, 0x62, 0x63] =
    #v[0xba7816bf, 0x8f01cfea, 0x414140de, 0x5dae2223, 0xb00361a3, 0x96177a9c, 0xb410ff61, 0xf20015ad] ∧
  ∀ (m : List Byte) (k : Fin 32), (sha256 m)[k] = lane (shaFinal m)[k.val / 4] (3 - k.val % 4)

/-- R107: the padded message is the message, 0x80, zero bytes and the 64-bit bit length, most significant byte first, in
`(L + 8) div 64 + 1` whole blocks. -/
def Obligations.PaddingFillsWholeBlocks : Prop :=
  ∀ m : List Byte, m.length ≤ 2 ^ 61 - 1 →
    (shaPad m).length = 64 * ((m.length + 8) / 64 + 1) ∧
    ∃ (zeros : Nat) (len : List Byte), zeros < 64 ∧ (m.length + 1 + zeros) % 64 = 56 ∧ len.length = 8 ∧
      shaPad m = m ++ 0x80 :: (List.replicate zeros 0 ++ len) ∧
      len.foldl (fun n b => 256 * n + b.toNat) 0 = 8 * m.length

/-- R123: the incremental hasher gives the hash of the absorbed bytes. -/
def Obligations.TheIncrementalHasherEqualsSha256 : Prop :=
  ∀ m : List Byte, m.length ≤ 2 ^ 61 - 1 → hashFinish (m.foldl hashAbsorb hashBegin) = sha256 m

/-- R113: each seed is its 4-byte window in the chosen order, for the reference `HASH` the byte-reversed or the plain word of
the final hash value; and, as R103 notes, slicing is injective. -/
def Obligations.SeedsAreTheDigestWindows : Prop :=
  (∀ (d : Digest) (i : Fin 8),
    (slice .littleEndian d)[i].toNat =
      d[4 * i.val].toNat + 2 ^ 8 * d[4 * i.val + 1].toNat + 2 ^ 16 * d[4 * i.val + 2].toNat +
        2 ^ 24 * d[4 * i.val + 3].toNat ∧
    (slice .bigEndian d)[i].toNat =
      2 ^ 24 * d[4 * i.val].toNat + 2 ^ 16 * d[4 * i.val + 1].toNat + 2 ^ 8 * d[4 * i.val + 2].toNat +
        d[4 * i.val + 3].toNat) ∧
  (∀ (m : List Byte) (i : Fin 8),
    (slice .littleEndian (sha256 m))[i] =
      ofLanes (lane (shaFinal m)[i] 0) (lane (shaFinal m)[i] 1) (lane (shaFinal m)[i] 2) (lane (shaFinal m)[i] 3) ∧
    (slice .bigEndian (sha256 m))[i] = (shaFinal m)[i]) ∧
  (∀ (o : SeedOrder) (d e : Digest), slice o d = slice o e → d = e)

/-! ### Invariants -/

/-- Every step of the reference configuration keeps R40 (a) and (d), the bound on the passphrase (R22) and the range of
every generator (R163). -/
def Obligations.EveryStepKeepsTheInvariant : Prop :=
  ∀ s t : State, StateInv referenceParams s → GensInRange s → step s = .next t →
    StateInv referenceParams t ∧ GensInRange t

/-- The reset state meets the invariant, for every draw. -/
def Obligations.ResetMeetsTheInvariant : Prop :=
  StateInv referenceParams State.reset ∧ GensInRange State.reset ∧ AtPosition referenceParams State.reset 0

/-- R40 in every configuration whose cursor wraps at a multiple of 8 (R167; log entry 6). -/
def Obligations.EveryConfigurationKeepsItsInvariant : Prop :=
  ∀ (G : Type) (W : Nat) (P : Params G W) (s t : Any.State G W), 3 ≤ W →
    StateInv P s → stepAt P s = .next t → StateInv P t

/-! ### Whole sessions -/

/-- R81 and R170: the pseudo-instruction ADD adds a chunk that fits, byte for byte, as one add would. -/
def Obligations.TheAddPseudoInstructionAddsItsChunk : Prop :=
  ∀ (G : Type) (W : Nat) (P : Params G W) (xs : List Byte) (s : Any.State G W), s.rspPending = false →
    s.buf.length + xs.length ≤ P.bufDepth →
    (run P ((expandAdd xs).map encode) s).final = xs.foldl (xorByte P) s ∧
    (run P ((expandAdd xs).map encode) s).added = xs

/-- R81 and R119: the pseudo-instruction PASSPHRASE starts, from any state, the session of its bytes. That PP_MSG, which R29
leaves open after PP_END, still holds the passphrase is the model's choice (log entry 3). -/
def Obligations.ThePassphrasePseudoInstructionStartsItsSession : Prop :=
  ∀ (G : Type) (W : Nat) (P : Params G W) (p : List Byte) (s : Any.State G W), s.rspPending = false →
    p.length ≤ P.ppMaxBytes →
    (run P ((expandPassphrase p).map encode) s).final =
      { sessionStart P (derive P p) true s with ppOpen := false, ppMsg := p }

/-- R176: within a session, the byte appended for the `j`-th input byte from position `p` on is that byte combined with
`KS(p + j)`, however the input is cut and whatever else is interleaved; and the run ends at position `p` plus the bytes. The
cursor wraps at a multiple of 8, as R167 has it (log entry 6). -/
def Obligations.PositionalPurity : Prop :=
  ∀ (G : Type) (W : Nat) (P : Params G W) (ws : List Word) (s : Any.State G W) (p : Nat), 3 ≤ W →
    AtPosition P s p → inSession P ws s = true →
    (run P ws s).appended =
      (run P ws s).added.mapIdx (fun j x => x ^^^ keystream P s.seed (p + j)) ∧
    (run P ws s).final.seed = s.seed ∧
    AtPosition P (run P ws s).final (p + (run P ws s).added.length)

/-- R177: from a fresh session, with no FLUSH, what was drained and what is still buffered is the whole input combined with
the keystream, whatever the chunks and drain points; a FLUSH empties the buffer and moves neither cursor nor generator. -/
def Obligations.ChunkInvariance : Prop :=
  (∀ (G : Type) (W : Nat) (P : Params G W) (ws : List Word) (s : Any.State G W), 3 ≤ W →
    Fresh P s → inSession P ws s = true →
    ws.all notFlush = true →
    (run P ws s).drained ++ (run P ws s).final.buf =
      (run P ws s).added.mapIdx (fun j x => x ^^^ keystream P s.seed j)) ∧
  (∀ (G : Type) (W : Nat) (P : Params G W) (s : Any.State G W), perform P .flush s = { s with buf := [] })

/-- R178: two sessions on one passphrase, the second fed what the first drained: the second drains the first's input, up to
what either still holds. -/
def Obligations.SelfInverse : Prop :=
  ∀ (G : Type) (W : Nat) (P : Params G W) (u v : Any.State G W) (ws vs : List Word),
    3 ≤ W → u.ppOpen = true → v.ppOpen = true → u.ppMsg = v.ppMsg →
    inSession P ws (perform P .ppEnd u) = true → inSession P vs (perform P .ppEnd v) = true →
    ws.all notFlush = true → vs.all notFlush = true →
    (run P vs (perform P .ppEnd v)).added = (run P ws (perform P .ppEnd u)).drained →
    (run P vs (perform P .ppEnd v)).drained <+: (run P ws (perform P .ppEnd u)).added ∧
    ((run P ws (perform P .ppEnd u)).final.buf = [] → (run P vs (perform P .ppEnd v)).final.buf = [] →
      (run P vs (perform P .ppEnd v)).drained = (run P ws (perform P .ppEnd u)).added)

/-- R147 and R148: two sessions started by PP_END on equal passphrases are equal, and the same adds, drains, flushes and
reads give the same responses and leave the same session state. -/
def Obligations.SessionsOnOnePassphraseAreEqual : Prop :=
  ∀ (G : Type) (W : Nat) (P : Params G W) (u v : Any.State G W) (ws : List Word),
    u.ppOpen = true → v.ppOpen = true → u.ppMsg = v.ppMsg → u.rspPending = false → v.rspPending = false →
    (∀ w ∈ ws, ∃ i, decode w = .command i ∧ usesSessionOnly i = true) →
    SameSession (perform P .ppEnd u) (perform P .ppEnd v) ∧
    (run P ws (perform P .ppEnd u)).responses = (run P ws (perform P .ppEnd v)).responses ∧
    SameSession (run P ws (perform P .ppEnd u)).final (run P ws (perform P .ppEnd v)).final

/-- R213 and R216: RD_TOTAL_LO, then words of the same session other than RD_TOTAL_LO, then RD_TOTAL_HI give the low 64 bits
of the cursor at the first read, and the cursor is the number of bytes XORed since the session started, modulo 2^`CURSOR_W`;
with at least 64 bits, as in the reference configuration, that is the number modulo 2^64. For a `CURSOR_W` other than 64 the
count and the readouts are the model's choice (log entry 6). -/
def Obligations.TheTwoTotalReadsGiveTheCount : Prop :=
  ∀ (G : Type) (W : Nat) (P : Params G W) (s : Any.State G W) (p : Nat) (ws : List Word), AtPosition P s p →
    inSession P ws (transact P (encode .rdTotalLo) s).1 = true →
    (∀ w ∈ ws, decode w ≠ .command .rdTotalLo) →
    ∃ lo hi : Word,
      (run P (encode .rdTotalLo :: (ws ++ [encode .rdTotalHi])) s).responses.head? = some (some lo) ∧
      (run P (encode .rdTotalLo :: (ws ++ [encode .rdTotalHi])) s).responses.getLast? = some (some hi) ∧
      hi.toNat * 2 ^ 32 + lo.toNat = s.cursor.toNat % 2 ^ 64 ∧ s.cursor.toNat = p % 2 ^ W ∧
      (64 ≤ W → hi.toNat * 2 ^ 32 + lo.toNat = p % 2 ^ 64)

/-- R218: DUMP makes `L div 3 + 1` drains, all but the last with `cnt = 3` and the last with `cnt = L mod 3`; it returns the
buffered bytes in order and the cursor (64 bits of it), and leaves the buffer empty, the snapshot as RD_TOTAL_LO takes it, and
nothing else changed but the word last answered; and the host's loop ends by itself. For a `CURSOR_W` other than 64 the total
and the snapshot are the model's choice (log entry 6). -/
def Obligations.DumpReturnsTheWholeBuffer : Prop :=
  ∀ (G : Type) (W : Nat) (P : Params G W) (s : Any.State G W), s.rspPending = false →
    (dump P s).drains.length = s.buf.length / 3 + 1 ∧
    (∀ r ∈ (dump P s).drains.dropLast, responseCount r = 3) ∧
    (dump P s).drains.getLast?.map responseCount = some (s.buf.length % 3) ∧
    (dump P s).bytes = s.buf ∧
    (dump P s).total = some (s.cursor.setWidth 64) ∧
    (dump P s).final =
      { s with buf := [], totalHiSnap := countHi s.cursor, rspWord := (dump P s).final.rspWord } ∧
    (∀ n : Nat, s.buf.length / 3 < n → dumpLoop P n s = dumpLoop P (s.buf.length / 3 + 1) s)

/-- R288: an add rejected for want of room and issued again after drains gives the bytes it would have given at first. -/
def Obligations.AReissuedAddGetsTheSameKeystream : Prop :=
  ∀ (G : Type) (W : Nat) (P : Params G W) (i : Instr) (s : Any.State G W) (k : Nat),
    rejection P i s = some .ovf → s.rspPending = false →
    (run P (encode i :: List.replicate k (encode .drain3)) s).final.buf.length + (addData i).length ≤ P.bufDepth →
    appendedBy P (encode i) (run P (encode i :: List.replicate k (encode .drain3)) s).final =
      ((addData i).foldl (xorByte P) { s with buf := [] }).buf

/-- R264: a run within a session that ends with STATUS bits 8..11 at 0 had no word rejected. -/
def Obligations.ACleanEndMeansNothingWasRejected : Prop :=
  ∀ (G : Type) (W : Nat) (P : Params G W) (ws : List Word) (s : Any.State G W),
    inSession P ws s = true → Clean (run P ws s).final →
    ∀ (before after : List Word) (w : Word), ws = before ++ w :: after →
      ∃ i, decode w = .command i ∧ rejection P i (run P before s).final = none
end

