-- ==== Sys2Proof/Laws/Operands.lean ====
section
/-!
SUPPORT. Words and their lanes: every proof about an encoding or a response word goes through these.
-/
namespace Sys2Proof.Machine

/-- Bit `k` of a word put together from four lanes is the bit of the lane it falls in (R57). -/
theorem getLsbD_ofLanes (l3 l2 l1 l0 : Byte) (k : Nat) :
    (ofLanes l3 l2 l1 l0).getLsbD k =
      if k < 8 then l0.getLsbD k else if k < 16 then l1.getLsbD (k - 8)
      else if k < 24 then l2.getLsbD (k - 16) else l3.getLsbD (k - 24) := by
  unfold ofLanes
  simp only [BitVec.getLsbD_append]
  by_cases h0 : k < 8
  · simp [h0]
  · by_cases h1 : k < 16
    · simp [h0, h1, show k - 8 < 8 by omega]
    · by_cases h2 : k < 24
      · simp [h0, h1, h2, show ¬ k - 8 < 8 by omega, show k - 8 - 8 = k - 16 by omega, show k - 16 < 8 by omega]
      · simp [h0, h1, h2, show ¬ k - 8 < 8 by omega, show ¬ k - 8 - 8 < 8 by omega,
          show k - 8 - 8 - 8 = k - 24 by omega]

@[simp] theorem lane_zero_ofLanes (l3 l2 l1 l0 : Byte) : lane (ofLanes l3 l2 l1 l0) 0 = l0 := by
  apply BitVec.eq_of_getLsbD_eq
  intro k hk
  simp [lane, getLsbD_ofLanes, hk]

@[simp] theorem lane_one_ofLanes (l3 l2 l1 l0 : Byte) : lane (ofLanes l3 l2 l1 l0) 1 = l1 := by
  apply BitVec.eq_of_getLsbD_eq
  intro k hk
  simp [lane, getLsbD_ofLanes, hk, show 8 + k < 16 by omega]

@[simp] theorem lane_two_ofLanes (l3 l2 l1 l0 : Byte) : lane (ofLanes l3 l2 l1 l0) 2 = l2 := by
  apply BitVec.eq_of_getLsbD_eq
  intro k hk
  simp [lane, getLsbD_ofLanes, hk, show ¬ 16 + k < 8 by omega, show ¬ 16 + k < 16 by omega, show 16 + k < 24 by omega]

@[simp] theorem lane_three_ofLanes (l3 l2 l1 l0 : Byte) : lane (ofLanes l3 l2 l1 l0) 3 = l3 := by
  apply BitVec.eq_of_getLsbD_eq
  intro k hk
  simp [lane, getLsbD_ofLanes, hk, show ¬ 24 + k < 8 by omega, show ¬ 24 + k < 16 by omega]

/-- The opcode is lane 3 (R70). -/
theorem opcode_eq_lane (w : Word) : opcode w = lane w 3 := rfl

@[simp] theorem opcode_ofLanes (l3 l2 l1 l0 : Byte) : opcode (ofLanes l3 l2 l1 l0) = l3 :=
  lane_three_ofLanes l3 l2 l1 l0

/-- A word is the word of its lanes. -/
theorem ofLanes_lane (w : Word) : ofLanes (lane w 3) (lane w 2) (lane w 1) (lane w 0) = w := by
  apply BitVec.eq_of_getLsbD_eq
  intro k hk
  rw [getLsbD_ofLanes]
  by_cases h0 : k < 8
  · simp [lane, h0]
  · by_cases h1 : k < 16
    · simp [lane, h0, h1, show k - 8 < 8 by omega, show 8 + (k - 8) = k by omega]
    · by_cases h2 : k < 24
      · simp [lane, h0, h1, h2, show k - 16 < 8 by omega, show 16 + (k - 16) = k by omega]
      · simp [lane, h0, h1, h2, show k - 24 < 8 by omega, show 24 + (k - 24) = k by omega]

/-- A field of a word is zero exactly when its bits are. -/
theorem eq_zero_iff_bits {n : Nat} (v : BitVec n) : v = 0#n ↔ ∀ k < n, v.getLsbD k = false := by
  constructor
  · rintro rfl k _
    simp
  · intro h
    apply BitVec.eq_of_getLsbD_eq
    intro k hk
    simp [h k hk]

/-- Bits [23:0] are zero exactly when lanes 2, 1 and 0 are (R77, format Z). -/
theorem low24_ofLanes (l3 l2 l1 l0 : Byte) :
    (ofLanes l3 l2 l1 l0).extractLsb' 0 24 = 0#24 ↔ l2 = 0#8 ∧ l1 = 0#8 ∧ l0 = 0#8 := by
  simp only [eq_zero_iff_bits, BitVec.getLsbD_extractLsb', getLsbD_ofLanes]
  constructor
  · intro h
    refine ⟨fun k hk => ?_, fun k hk => ?_, fun k hk => ?_⟩
    · simpa [hk, show 16 + k < 24 by omega, show ¬ 16 + k < 16 by omega, show ¬ 16 + k < 8 by omega] using h (16 + k) (by omega)
    · simpa [hk, show 8 + k < 24 by omega, show 8 + k < 16 by omega] using h (8 + k) (by omega)
    · simpa [hk, show k < 24 by omega] using h k (by omega)
  · rintro ⟨h2, h1, h0⟩ k hk
    simp only [hk, decide_true, Bool.true_and, Nat.zero_add]
    split
    · exact h0 _ ‹_›
    · split
      · exact h1 _ (by omega)
      · simp only [if_true]; exact h2 _ (by omega)

/-- Bits [23:8] are zero exactly when lanes 2 and 1 are (R77, format B1). -/
theorem mid16_ofLanes (l3 l2 l1 l0 : Byte) :
    (ofLanes l3 l2 l1 l0).extractLsb' 8 16 = 0#16 ↔ l2 = 0#8 ∧ l1 = 0#8 := by
  simp only [eq_zero_iff_bits, BitVec.getLsbD_extractLsb', getLsbD_ofLanes]
  constructor
  · intro h
    refine ⟨fun k hk => ?_, fun k hk => ?_⟩
    · simpa [hk, show 8 + k < 16 by omega, show ¬ 8 + (8 + k) < 16 by omega, show ¬ 8 + (8 + k) < 8 by omega,
        show 8 + (8 + k) < 24 by omega, show 8 + (8 + k) - 16 = k by omega] using h (8 + k) (by omega)
    · simpa [hk, show k < 16 by omega, show 8 + k < 16 by omega] using h k (by omega)
  · rintro ⟨h2, h1⟩ k hk
    simp only [hk, decide_true, Bool.true_and, show ¬ 8 + k < 8 by omega, if_false]
    split
    · exact h1 _ (by omega)
    · simp only [show 8 + k < 24 by omega, if_true]; exact h2 _ (by omega)

/-- Bits [23:16] are zero exactly when lane 2 is (R77, format B2). -/
theorem high8_ofLanes (l3 l2 l1 l0 : Byte) :
    (ofLanes l3 l2 l1 l0).extractLsb' 16 8 = 0#8 ↔ l2 = 0#8 := by
  exact Iff.of_eq (congrArg (· = 0#8) (lane_two_ofLanes l3 l2 l1 l0))

/-- The reserved bits of a word are clear exactly when the reserved lanes of its format are zero (R77). -/
theorem reservedClear_ofLanes (f : Format) (l3 l2 l1 l0 : Byte) :
    reservedClear f (ofLanes l3 l2 l1 l0) = true ↔
      match f with
      | .z => l2 = 0#8 ∧ l1 = 0#8 ∧ l0 = 0#8
      | .b1 => l2 = 0#8 ∧ l1 = 0#8
      | .b2 => l2 = 0#8
      | .b3 => True := by
  cases f <;> simp [reservedClear, low24_ofLanes, mid16_ofLanes, high8_ofLanes]

end Sys2Proof.Machine
end

