-- ==== Sys2Proof/Laws/State.lean ====
section
/-!
SUPPORT. One lemma per field of State per named operation: what the operation leaves in that field. A later proof rewrites
with these and does not unfold a record update.
-/
namespace Sys2Proof.Machine

section
variable {G : Type} {W : Nat} (s : Any.State G W)

/-! `clearErrBits` -/

@[simp] theorem clearErrBits_gen :
    (clearErrBits s).gen = s.gen := rfl
@[simp] theorem clearErrBits_seed :
    (clearErrBits s).seed = s.seed := rfl
@[simp] theorem clearErrBits_cursor :
    (clearErrBits s).cursor = s.cursor := rfl
@[simp] theorem clearErrBits_buf :
    (clearErrBits s).buf = s.buf := rfl
@[simp] theorem clearErrBits_modePp :
    (clearErrBits s).modePp = s.modePp := rfl
@[simp] theorem clearErrBits_ppOpen :
    (clearErrBits s).ppOpen = s.ppOpen := rfl
@[simp] theorem clearErrBits_ppMsg :
    (clearErrBits s).ppMsg = s.ppMsg := rfl
@[simp] theorem clearErrBits_errIll :
    (clearErrBits s).errIll = false := rfl
@[simp] theorem clearErrBits_errSeq :
    (clearErrBits s).errSeq = false := rfl
@[simp] theorem clearErrBits_errOvf :
    (clearErrBits s).errOvf = false := rfl
@[simp] theorem clearErrBits_errPplen :
    (clearErrBits s).errPplen = false := rfl
@[simp] theorem clearErrBits_totalHiSnap :
    (clearErrBits s).totalHiSnap = s.totalHiSnap := rfl
@[simp] theorem clearErrBits_rspPending :
    (clearErrBits s).rspPending = s.rspPending := rfl
@[simp] theorem clearErrBits_rspWord :
    (clearErrBits s).rspWord = s.rspWord := rfl
@[simp] theorem clearErrBits_drawCount :
    (clearErrBits s).drawCount = s.drawCount := rfl
@[simp] theorem clearErrBits_host :
    (clearErrBits s).host = s.host := rfl

/-! `respond` -/

@[simp] theorem respond_gen (v : Word) :
    (respond v s).gen = s.gen := rfl
@[simp] theorem respond_seed (v : Word) :
    (respond v s).seed = s.seed := rfl
@[simp] theorem respond_cursor (v : Word) :
    (respond v s).cursor = s.cursor := rfl
@[simp] theorem respond_buf (v : Word) :
    (respond v s).buf = s.buf := rfl
@[simp] theorem respond_modePp (v : Word) :
    (respond v s).modePp = s.modePp := rfl
@[simp] theorem respond_ppOpen (v : Word) :
    (respond v s).ppOpen = s.ppOpen := rfl
@[simp] theorem respond_ppMsg (v : Word) :
    (respond v s).ppMsg = s.ppMsg := rfl
@[simp] theorem respond_errIll (v : Word) :
    (respond v s).errIll = s.errIll := rfl
@[simp] theorem respond_errSeq (v : Word) :
    (respond v s).errSeq = s.errSeq := rfl
@[simp] theorem respond_errOvf (v : Word) :
    (respond v s).errOvf = s.errOvf := rfl
@[simp] theorem respond_errPplen (v : Word) :
    (respond v s).errPplen = s.errPplen := rfl
@[simp] theorem respond_totalHiSnap (v : Word) :
    (respond v s).totalHiSnap = s.totalHiSnap := rfl
@[simp] theorem respond_rspPending (v : Word) :
    (respond v s).rspPending = true := rfl
@[simp] theorem respond_rspWord (v : Word) :
    (respond v s).rspWord = v := rfl
@[simp] theorem respond_drawCount (v : Word) :
    (respond v s).drawCount = s.drawCount := rfl
@[simp] theorem respond_host (v : Word) :
    (respond v s).host = s.host := rfl

/-! `consumeResponse` -/

@[simp] theorem consumeResponse_gen :
    (consumeResponse s).gen = s.gen := rfl
@[simp] theorem consumeResponse_seed :
    (consumeResponse s).seed = s.seed := rfl
@[simp] theorem consumeResponse_cursor :
    (consumeResponse s).cursor = s.cursor := rfl
@[simp] theorem consumeResponse_buf :
    (consumeResponse s).buf = s.buf := rfl
@[simp] theorem consumeResponse_modePp :
    (consumeResponse s).modePp = s.modePp := rfl
@[simp] theorem consumeResponse_ppOpen :
    (consumeResponse s).ppOpen = s.ppOpen := rfl
@[simp] theorem consumeResponse_ppMsg :
    (consumeResponse s).ppMsg = s.ppMsg := rfl
@[simp] theorem consumeResponse_errIll :
    (consumeResponse s).errIll = s.errIll := rfl
@[simp] theorem consumeResponse_errSeq :
    (consumeResponse s).errSeq = s.errSeq := rfl
@[simp] theorem consumeResponse_errOvf :
    (consumeResponse s).errOvf = s.errOvf := rfl
@[simp] theorem consumeResponse_errPplen :
    (consumeResponse s).errPplen = s.errPplen := rfl
@[simp] theorem consumeResponse_totalHiSnap :
    (consumeResponse s).totalHiSnap = s.totalHiSnap := rfl
@[simp] theorem consumeResponse_rspPending :
    (consumeResponse s).rspPending = false := rfl
@[simp] theorem consumeResponse_rspWord :
    (consumeResponse s).rspWord = s.rspWord := rfl
@[simp] theorem consumeResponse_drawCount :
    (consumeResponse s).drawCount = s.drawCount := rfl
@[simp] theorem consumeResponse_host :
    (consumeResponse s).host = s.host := rfl

/-! `bufAppend` -/

@[simp] theorem bufAppend_gen (b : Byte) :
    (bufAppend b s).gen = s.gen := rfl
@[simp] theorem bufAppend_seed (b : Byte) :
    (bufAppend b s).seed = s.seed := rfl
@[simp] theorem bufAppend_cursor (b : Byte) :
    (bufAppend b s).cursor = s.cursor := rfl
@[simp] theorem bufAppend_buf (b : Byte) :
    (bufAppend b s).buf = s.buf ++ [b] := rfl
@[simp] theorem bufAppend_modePp (b : Byte) :
    (bufAppend b s).modePp = s.modePp := rfl
@[simp] theorem bufAppend_ppOpen (b : Byte) :
    (bufAppend b s).ppOpen = s.ppOpen := rfl
@[simp] theorem bufAppend_ppMsg (b : Byte) :
    (bufAppend b s).ppMsg = s.ppMsg := rfl
@[simp] theorem bufAppend_errIll (b : Byte) :
    (bufAppend b s).errIll = s.errIll := rfl
@[simp] theorem bufAppend_errSeq (b : Byte) :
    (bufAppend b s).errSeq = s.errSeq := rfl
@[simp] theorem bufAppend_errOvf (b : Byte) :
    (bufAppend b s).errOvf = s.errOvf := rfl
@[simp] theorem bufAppend_errPplen (b : Byte) :
    (bufAppend b s).errPplen = s.errPplen := rfl
@[simp] theorem bufAppend_totalHiSnap (b : Byte) :
    (bufAppend b s).totalHiSnap = s.totalHiSnap := rfl
@[simp] theorem bufAppend_rspPending (b : Byte) :
    (bufAppend b s).rspPending = s.rspPending := rfl
@[simp] theorem bufAppend_rspWord (b : Byte) :
    (bufAppend b s).rspWord = s.rspWord := rfl
@[simp] theorem bufAppend_drawCount (b : Byte) :
    (bufAppend b s).drawCount = s.drawCount := rfl
@[simp] theorem bufAppend_host (b : Byte) :
    (bufAppend b s).host = s.host := rfl

/-! `bufClear` -/

@[simp] theorem bufClear_gen :
    (bufClear s).gen = s.gen := rfl
@[simp] theorem bufClear_seed :
    (bufClear s).seed = s.seed := rfl
@[simp] theorem bufClear_cursor :
    (bufClear s).cursor = s.cursor := rfl
@[simp] theorem bufClear_buf :
    (bufClear s).buf = [] := rfl
@[simp] theorem bufClear_modePp :
    (bufClear s).modePp = s.modePp := rfl
@[simp] theorem bufClear_ppOpen :
    (bufClear s).ppOpen = s.ppOpen := rfl
@[simp] theorem bufClear_ppMsg :
    (bufClear s).ppMsg = s.ppMsg := rfl
@[simp] theorem bufClear_errIll :
    (bufClear s).errIll = s.errIll := rfl
@[simp] theorem bufClear_errSeq :
    (bufClear s).errSeq = s.errSeq := rfl
@[simp] theorem bufClear_errOvf :
    (bufClear s).errOvf = s.errOvf := rfl
@[simp] theorem bufClear_errPplen :
    (bufClear s).errPplen = s.errPplen := rfl
@[simp] theorem bufClear_totalHiSnap :
    (bufClear s).totalHiSnap = s.totalHiSnap := rfl
@[simp] theorem bufClear_rspPending :
    (bufClear s).rspPending = s.rspPending := rfl
@[simp] theorem bufClear_rspWord :
    (bufClear s).rspWord = s.rspWord := rfl
@[simp] theorem bufClear_drawCount :
    (bufClear s).drawCount = s.drawCount := rfl
@[simp] theorem bufClear_host :
    (bufClear s).host = s.host := rfl

/-! `ppAppend` -/

@[simp] theorem ppAppend_gen (b : Byte) :
    (ppAppend s b).gen = s.gen := rfl
@[simp] theorem ppAppend_seed (b : Byte) :
    (ppAppend s b).seed = s.seed := rfl
@[simp] theorem ppAppend_cursor (b : Byte) :
    (ppAppend s b).cursor = s.cursor := rfl
@[simp] theorem ppAppend_buf (b : Byte) :
    (ppAppend s b).buf = s.buf := rfl
@[simp] theorem ppAppend_modePp (b : Byte) :
    (ppAppend s b).modePp = s.modePp := rfl
@[simp] theorem ppAppend_ppOpen (b : Byte) :
    (ppAppend s b).ppOpen = s.ppOpen := rfl
@[simp] theorem ppAppend_ppMsg (b : Byte) :
    (ppAppend s b).ppMsg = s.ppMsg ++ [b] := rfl
@[simp] theorem ppAppend_errIll (b : Byte) :
    (ppAppend s b).errIll = s.errIll := rfl
@[simp] theorem ppAppend_errSeq (b : Byte) :
    (ppAppend s b).errSeq = s.errSeq := rfl
@[simp] theorem ppAppend_errOvf (b : Byte) :
    (ppAppend s b).errOvf = s.errOvf := rfl
@[simp] theorem ppAppend_errPplen (b : Byte) :
    (ppAppend s b).errPplen = s.errPplen := rfl
@[simp] theorem ppAppend_totalHiSnap (b : Byte) :
    (ppAppend s b).totalHiSnap = s.totalHiSnap := rfl
@[simp] theorem ppAppend_rspPending (b : Byte) :
    (ppAppend s b).rspPending = s.rspPending := rfl
@[simp] theorem ppAppend_rspWord (b : Byte) :
    (ppAppend s b).rspWord = s.rspWord := rfl
@[simp] theorem ppAppend_drawCount (b : Byte) :
    (ppAppend s b).drawCount = s.drawCount := rfl
@[simp] theorem ppAppend_host (b : Byte) :
    (ppAppend s b).host = s.host := rfl

/-! `advanceCursor` -/

@[simp] theorem advanceCursor_gen :
    (advanceCursor s).gen = s.gen := rfl
@[simp] theorem advanceCursor_seed :
    (advanceCursor s).seed = s.seed := rfl
@[simp] theorem advanceCursor_cursor :
    (advanceCursor s).cursor = s.cursor + 1 := rfl
@[simp] theorem advanceCursor_buf :
    (advanceCursor s).buf = s.buf := rfl
@[simp] theorem advanceCursor_modePp :
    (advanceCursor s).modePp = s.modePp := rfl
@[simp] theorem advanceCursor_ppOpen :
    (advanceCursor s).ppOpen = s.ppOpen := rfl
@[simp] theorem advanceCursor_ppMsg :
    (advanceCursor s).ppMsg = s.ppMsg := rfl
@[simp] theorem advanceCursor_errIll :
    (advanceCursor s).errIll = s.errIll := rfl
@[simp] theorem advanceCursor_errSeq :
    (advanceCursor s).errSeq = s.errSeq := rfl
@[simp] theorem advanceCursor_errOvf :
    (advanceCursor s).errOvf = s.errOvf := rfl
@[simp] theorem advanceCursor_errPplen :
    (advanceCursor s).errPplen = s.errPplen := rfl
@[simp] theorem advanceCursor_totalHiSnap :
    (advanceCursor s).totalHiSnap = s.totalHiSnap := rfl
@[simp] theorem advanceCursor_rspPending :
    (advanceCursor s).rspPending = s.rspPending := rfl
@[simp] theorem advanceCursor_rspWord :
    (advanceCursor s).rspWord = s.rspWord := rfl
@[simp] theorem advanceCursor_drawCount :
    (advanceCursor s).drawCount = s.drawCount := rfl
@[simp] theorem advanceCursor_host :
    (advanceCursor s).host = s.host := rfl

/-! `genDraw` -/

@[simp] theorem genDraw_gen (P : Params G W) (i : Fin 8) :
    (genDraw P i s).2.gen = s.gen.set i (P.gdraw s.gen[i]).2 := rfl
@[simp] theorem genDraw_seed (P : Params G W) (i : Fin 8) :
    (genDraw P i s).2.seed = s.seed := rfl
@[simp] theorem genDraw_cursor (P : Params G W) (i : Fin 8) :
    (genDraw P i s).2.cursor = s.cursor := rfl
@[simp] theorem genDraw_buf (P : Params G W) (i : Fin 8) :
    (genDraw P i s).2.buf = s.buf := rfl
@[simp] theorem genDraw_modePp (P : Params G W) (i : Fin 8) :
    (genDraw P i s).2.modePp = s.modePp := rfl
@[simp] theorem genDraw_ppOpen (P : Params G W) (i : Fin 8) :
    (genDraw P i s).2.ppOpen = s.ppOpen := rfl
@[simp] theorem genDraw_ppMsg (P : Params G W) (i : Fin 8) :
    (genDraw P i s).2.ppMsg = s.ppMsg := rfl
@[simp] theorem genDraw_errIll (P : Params G W) (i : Fin 8) :
    (genDraw P i s).2.errIll = s.errIll := rfl
@[simp] theorem genDraw_errSeq (P : Params G W) (i : Fin 8) :
    (genDraw P i s).2.errSeq = s.errSeq := rfl
@[simp] theorem genDraw_errOvf (P : Params G W) (i : Fin 8) :
    (genDraw P i s).2.errOvf = s.errOvf := rfl
@[simp] theorem genDraw_errPplen (P : Params G W) (i : Fin 8) :
    (genDraw P i s).2.errPplen = s.errPplen := rfl
@[simp] theorem genDraw_totalHiSnap (P : Params G W) (i : Fin 8) :
    (genDraw P i s).2.totalHiSnap = s.totalHiSnap := rfl
@[simp] theorem genDraw_rspPending (P : Params G W) (i : Fin 8) :
    (genDraw P i s).2.rspPending = s.rspPending := rfl
@[simp] theorem genDraw_rspWord (P : Params G W) (i : Fin 8) :
    (genDraw P i s).2.rspWord = s.rspWord := rfl
@[simp] theorem genDraw_drawCount (P : Params G W) (i : Fin 8) :
    (genDraw P i s).2.drawCount = s.drawCount := rfl
@[simp] theorem genDraw_host (P : Params G W) (i : Fin 8) :
    (genDraw P i s).2.host = s.host := rfl

/-! `xorByte` -/

@[simp] theorem xorByte_gen (P : Params G W) (b : Byte) :
    (xorByte P s b).gen = s.gen.set (selector s.cursor) (P.gdraw s.gen[selector s.cursor]).2 := rfl
@[simp] theorem xorByte_seed (P : Params G W) (b : Byte) :
    (xorByte P s b).seed = s.seed := rfl
@[simp] theorem xorByte_cursor (P : Params G W) (b : Byte) :
    (xorByte P s b).cursor = s.cursor + 1 := rfl
@[simp] theorem xorByte_buf (P : Params G W) (b : Byte) :
    (xorByte P s b).buf = s.buf ++ [b ^^^ (P.gdraw s.gen[selector s.cursor]).1] := rfl
@[simp] theorem xorByte_modePp (P : Params G W) (b : Byte) :
    (xorByte P s b).modePp = s.modePp := rfl
@[simp] theorem xorByte_ppOpen (P : Params G W) (b : Byte) :
    (xorByte P s b).ppOpen = s.ppOpen := rfl
@[simp] theorem xorByte_ppMsg (P : Params G W) (b : Byte) :
    (xorByte P s b).ppMsg = s.ppMsg := rfl
@[simp] theorem xorByte_errIll (P : Params G W) (b : Byte) :
    (xorByte P s b).errIll = s.errIll := rfl
@[simp] theorem xorByte_errSeq (P : Params G W) (b : Byte) :
    (xorByte P s b).errSeq = s.errSeq := rfl
@[simp] theorem xorByte_errOvf (P : Params G W) (b : Byte) :
    (xorByte P s b).errOvf = s.errOvf := rfl
@[simp] theorem xorByte_errPplen (P : Params G W) (b : Byte) :
    (xorByte P s b).errPplen = s.errPplen := rfl
@[simp] theorem xorByte_totalHiSnap (P : Params G W) (b : Byte) :
    (xorByte P s b).totalHiSnap = s.totalHiSnap := rfl
@[simp] theorem xorByte_rspPending (P : Params G W) (b : Byte) :
    (xorByte P s b).rspPending = s.rspPending := rfl
@[simp] theorem xorByte_rspWord (P : Params G W) (b : Byte) :
    (xorByte P s b).rspWord = s.rspWord := rfl
@[simp] theorem xorByte_drawCount (P : Params G W) (b : Byte) :
    (xorByte P s b).drawCount = s.drawCount := rfl
@[simp] theorem xorByte_host (P : Params G W) (b : Byte) :
    (xorByte P s b).host = s.host := rfl

/-! `sessionStart` -/

@[simp] theorem sessionStart_gen (P : Params G W) (seeds : SeedSet) (mode : Bool) :
    (sessionStart P seeds mode s).gen = seedBank P seeds := rfl
@[simp] theorem sessionStart_seed (P : Params G W) (seeds : SeedSet) (mode : Bool) :
    (sessionStart P seeds mode s).seed = seeds := rfl
@[simp] theorem sessionStart_cursor (P : Params G W) (seeds : SeedSet) (mode : Bool) :
    (sessionStart P seeds mode s).cursor = 0 := rfl
@[simp] theorem sessionStart_buf (P : Params G W) (seeds : SeedSet) (mode : Bool) :
    (sessionStart P seeds mode s).buf = [] := rfl
@[simp] theorem sessionStart_modePp (P : Params G W) (seeds : SeedSet) (mode : Bool) :
    (sessionStart P seeds mode s).modePp = mode := rfl
@[simp] theorem sessionStart_ppOpen (P : Params G W) (seeds : SeedSet) (mode : Bool) :
    (sessionStart P seeds mode s).ppOpen = s.ppOpen := rfl
@[simp] theorem sessionStart_ppMsg (P : Params G W) (seeds : SeedSet) (mode : Bool) :
    (sessionStart P seeds mode s).ppMsg = s.ppMsg := rfl
@[simp] theorem sessionStart_errIll (P : Params G W) (seeds : SeedSet) (mode : Bool) :
    (sessionStart P seeds mode s).errIll = false := rfl
@[simp] theorem sessionStart_errSeq (P : Params G W) (seeds : SeedSet) (mode : Bool) :
    (sessionStart P seeds mode s).errSeq = false := rfl
@[simp] theorem sessionStart_errOvf (P : Params G W) (seeds : SeedSet) (mode : Bool) :
    (sessionStart P seeds mode s).errOvf = false := rfl
@[simp] theorem sessionStart_errPplen (P : Params G W) (seeds : SeedSet) (mode : Bool) :
    (sessionStart P seeds mode s).errPplen = false := rfl
@[simp] theorem sessionStart_totalHiSnap (P : Params G W) (seeds : SeedSet) (mode : Bool) :
    (sessionStart P seeds mode s).totalHiSnap = 0 := rfl
@[simp] theorem sessionStart_rspPending (P : Params G W) (seeds : SeedSet) (mode : Bool) :
    (sessionStart P seeds mode s).rspPending = s.rspPending := rfl
@[simp] theorem sessionStart_rspWord (P : Params G W) (seeds : SeedSet) (mode : Bool) :
    (sessionStart P seeds mode s).rspWord = s.rspWord := rfl
@[simp] theorem sessionStart_drawCount (P : Params G W) (seeds : SeedSet) (mode : Bool) :
    (sessionStart P seeds mode s).drawCount = s.drawCount := rfl
@[simp] theorem sessionStart_host (P : Params G W) (seeds : SeedSet) (mode : Bool) :
    (sessionStart P seeds mode s).host = s.host := rfl

/-! `defaultStart` -/

@[simp] theorem defaultStart_gen (P : Params G W) :
    (defaultStart P s).gen = seedBank P (P.defaultSeeds s.drawCount) := rfl
@[simp] theorem defaultStart_seed (P : Params G W) :
    (defaultStart P s).seed = P.defaultSeeds s.drawCount := rfl
@[simp] theorem defaultStart_cursor (P : Params G W) :
    (defaultStart P s).cursor = 0 := rfl
@[simp] theorem defaultStart_buf (P : Params G W) :
    (defaultStart P s).buf = [] := rfl
@[simp] theorem defaultStart_modePp (P : Params G W) :
    (defaultStart P s).modePp = false := rfl
@[simp] theorem defaultStart_ppOpen (P : Params G W) :
    (defaultStart P s).ppOpen = s.ppOpen := rfl
@[simp] theorem defaultStart_ppMsg (P : Params G W) :
    (defaultStart P s).ppMsg = s.ppMsg := rfl
@[simp] theorem defaultStart_errIll (P : Params G W) :
    (defaultStart P s).errIll = false := rfl
@[simp] theorem defaultStart_errSeq (P : Params G W) :
    (defaultStart P s).errSeq = false := rfl
@[simp] theorem defaultStart_errOvf (P : Params G W) :
    (defaultStart P s).errOvf = false := rfl
@[simp] theorem defaultStart_errPplen (P : Params G W) :
    (defaultStart P s).errPplen = false := rfl
@[simp] theorem defaultStart_totalHiSnap (P : Params G W) :
    (defaultStart P s).totalHiSnap = 0 := rfl
@[simp] theorem defaultStart_rspPending (P : Params G W) :
    (defaultStart P s).rspPending = s.rspPending := rfl
@[simp] theorem defaultStart_rspWord (P : Params G W) :
    (defaultStart P s).rspWord = s.rspWord := rfl
@[simp] theorem defaultStart_drawCount (P : Params G W) :
    (defaultStart P s).drawCount = s.drawCount + 1 := rfl
@[simp] theorem defaultStart_host (P : Params G W) :
    (defaultStart P s).host = s.host := rfl

/-! `setErrBit` and `reject`: the error's own bit is `errBit_setErrBit`, the other fields stay. -/

@[simp] theorem setErrBit_gen (e : CommandError) : (setErrBit e s).gen = s.gen := by cases e <;> rfl
@[simp] theorem setErrBit_seed (e : CommandError) : (setErrBit e s).seed = s.seed := by cases e <;> rfl
@[simp] theorem setErrBit_cursor (e : CommandError) : (setErrBit e s).cursor = s.cursor := by cases e <;> rfl
@[simp] theorem setErrBit_buf (e : CommandError) : (setErrBit e s).buf = s.buf := by cases e <;> rfl
@[simp] theorem setErrBit_modePp (e : CommandError) : (setErrBit e s).modePp = s.modePp := by cases e <;> rfl
@[simp] theorem setErrBit_ppOpen (e : CommandError) : (setErrBit e s).ppOpen = s.ppOpen := by cases e <;> rfl
@[simp] theorem setErrBit_ppMsg (e : CommandError) : (setErrBit e s).ppMsg = s.ppMsg := by cases e <;> rfl
@[simp] theorem setErrBit_totalHiSnap (e : CommandError) : (setErrBit e s).totalHiSnap = s.totalHiSnap := by cases e <;> rfl
@[simp] theorem setErrBit_rspPending (e : CommandError) : (setErrBit e s).rspPending = s.rspPending := by cases e <;> rfl
@[simp] theorem setErrBit_rspWord (e : CommandError) : (setErrBit e s).rspWord = s.rspWord := by cases e <;> rfl
@[simp] theorem setErrBit_drawCount (e : CommandError) : (setErrBit e s).drawCount = s.drawCount := by cases e <;> rfl
@[simp] theorem setErrBit_host (e : CommandError) : (setErrBit e s).host = s.host := by cases e <;> rfl

@[simp] theorem reject_gen (e : CommandError) : (reject e s).gen = s.gen := by cases e <;> rfl
@[simp] theorem reject_seed (e : CommandError) : (reject e s).seed = s.seed := by cases e <;> rfl
@[simp] theorem reject_cursor (e : CommandError) : (reject e s).cursor = s.cursor := by cases e <;> rfl
@[simp] theorem reject_buf (e : CommandError) : (reject e s).buf = s.buf := by cases e <;> rfl
@[simp] theorem reject_modePp (e : CommandError) : (reject e s).modePp = s.modePp := by cases e <;> rfl
@[simp] theorem reject_ppOpen (e : CommandError) : (reject e s).ppOpen = s.ppOpen := by cases e <;> rfl
@[simp] theorem reject_ppMsg (e : CommandError) : (reject e s).ppMsg = s.ppMsg := by cases e <;> rfl
@[simp] theorem reject_totalHiSnap (e : CommandError) : (reject e s).totalHiSnap = s.totalHiSnap := by cases e <;> rfl
@[simp] theorem reject_rspPending (e : CommandError) : (reject e s).rspPending = s.rspPending := by cases e <;> rfl
@[simp] theorem reject_rspWord (e : CommandError) : (reject e s).rspWord = s.rspWord := by cases e <;> rfl
@[simp] theorem reject_drawCount (e : CommandError) : (reject e s).drawCount = s.drawCount := by cases e <;> rfl
@[simp] theorem reject_host (e : CommandError) : (reject e s).host = s.host := by cases e <;> rfl

/-- Setting an error bit sets that bit and no other (R252). -/
@[simp] theorem errBit_setErrBit (e d : CommandError) :
    errBit (setErrBit e s) d = (errBit s d || decide (d = e)) := by
  cases e <;> cases d <;> simp [errBit, setErrBit]

/-- A rejection sets its own error bit and no other (R252). -/
@[simp] theorem errBit_reject (e d : CommandError) :
    errBit (reject e s) d = (errBit s d || decide (d = e)) := errBit_setErrBit s e d

@[simp] theorem errBit_clearErrBits (d : CommandError) : errBit (clearErrBits s) d = false := by
  cases d <;> rfl

end

end Sys2Proof.Machine
end

