-- ==== Sys2Proof/Laws/Ops.lean ====
section
/-!
SUPPORT. Each shared operation said once: what it can do, in closed form. The proofs cite these and do not unfold the
operations.
-/
namespace Sys2Proof.Machine

variable {G : Type} {W : Nat}

/-- Absorbing bytes one after another appends them in order (R56, R119). -/
theorem foldl_ppAppend (bs : List Byte) (s : Any.State G W) :
    bs.foldl ppAppend s = { s with ppMsg := s.ppMsg ++ bs } := by
  induction bs generalizing s with
  | nil => simp
  | cons b bs ih => simp [ih, ppAppend]

/-- What an absorb can do (R120-R122). -/
theorem absorbBytes_cases (P : Params G W) (bs : List Byte) (s : Any.State G W) :
    (s.ppOpen = false ∧ absorbBytes P bs s = reject .seq s) ∨
    (s.ppOpen = true ∧ s.ppMsg.length + bs.length > P.ppMaxBytes ∧ absorbBytes P bs s = reject .pplen s) ∨
    (s.ppOpen = true ∧ s.ppMsg.length + bs.length ≤ P.ppMaxBytes ∧
      absorbBytes P bs s = { s with ppMsg := s.ppMsg ++ bs }) := by
  unfold absorbBytes
  cases ho : s.ppOpen with
  | false => exact .inl ⟨rfl, rfl⟩
  | true =>
    by_cases h : s.ppMsg.length + bs.length > P.ppMaxBytes
    · exact .inr (.inl ⟨rfl, h, by simp [h]⟩)
    · exact .inr (.inr ⟨rfl, by omega, by simp [h, foldl_ppAppend, ho]⟩)

/-- What an add can do (R171-R173). -/
theorem addBytes_cases (P : Params G W) (bs : List Byte) (s : Any.State G W) :
    (s.buf.length + bs.length > P.bufDepth ∧ addBytes P bs s = reject .ovf s) ∨
    (s.buf.length + bs.length ≤ P.bufDepth ∧ addBytes P bs s = bs.foldl (xorByte P) s) := by
  unfold addBytes
  by_cases h : s.buf.length + bs.length > P.bufDepth
  · exact .inl ⟨h, by simp [h]⟩
  · exact .inr ⟨by omega, by simp [h]⟩

/-- After a rejected add every add of at least as many bytes is rejected too, as the buffer is as full as before (R288). -/
theorem addBytes_again (P : Params G W) (bs cs : List Byte) (s : Any.State G W)
    (h : s.buf.length + bs.length > P.bufDepth) (hle : bs.length ≤ cs.length) :
    addBytes P cs (addBytes P bs s) = reject .ovf (addBytes P bs s) := by
  rcases addBytes_cases P bs s with ⟨-, hb⟩ | ⟨hn, -⟩
  · rcases addBytes_cases P cs (addBytes P bs s) with ⟨-, hc⟩ | ⟨hn, -⟩
    · exact hc
    · rw [hb, reject_buf] at hn
      omega
  · omega

/-- Combining bytes changes the generators, the cursor and the buffer and nothing else; the cursor counts the bytes and
the buffer keeps what it held (R51, R168). -/
theorem foldl_xorByte_shape (P : Params G W) (bs : List Byte) (s : Any.State G W) :
    ∃ (g : GenBank G) (out : List Byte), out.length = bs.length ∧
      bs.foldl (xorByte P) s =
        { s with gen := g, cursor := s.cursor + BitVec.ofNat W bs.length, buf := s.buf ++ out } := by
  induction bs generalizing s with
  | nil => exact ⟨s.gen, [], rfl, by simp⟩
  | cons b bs ih =>
    obtain ⟨g, out, hlen, h⟩ := ih (xorByte P s b)
    refine ⟨g, (b ^^^ (P.gdraw s.gen[selector s.cursor]).1) :: out, by simp [hlen], ?_⟩
    rw [List.foldl_cons, h]
    have hc : s.cursor + 1 + BitVec.ofNat W bs.length = s.cursor + BitVec.ofNat W (bs.length + 1) := by
      rw [BitVec.add_assoc, Nat.add_comm, BitVec.ofNat_add]
      rfl
    simp only [xorByte, advanceCursor, bufAppend, genDraw, List.length_cons, hc, List.append_assoc,
      List.cons_append, List.nil_append]

/-- The lanes of a drain response from lane `j` on, over what the word held before (R200). -/
def orLanes (j : Nat) (r : Word) : List Byte → Word
  | [] => r
  | b :: bs => orLanes (j + 1) (r ||| inLane j b) bs

/-- The popping loop takes the oldest bytes, in order, into the lanes (R200). -/
theorem drainLoop_eq (n j : Nat) (r : Word) (s : Any.State G W) (h : n ≤ s.buf.length) :
    drainLoop n j r s = (orLanes j r (s.buf.take n), { s with buf := s.buf.drop n }) := by
  induction n generalizing j r s with
  | zero => simp [drainLoop, orLanes]
  | succ n ih =>
    cases hb : s.buf with
    | nil => simp [hb] at h
    | cons b rest =>
      have hn : n ≤ rest.length := by simpa [hb] using h
      simp [drainLoop, bufPop, hb, ih _ _ { s with buf := rest } hn, orLanes]

/-- `Drain(n)` in closed form (R200): the oldest `min n len(BUF)` bytes leave the buffer and fill the response. -/
theorem drain_eq (n : Nat) (s : Any.State G W) :
    drain n s =
      respond (orLanes 0 (drainHeader (min n s.buf.length)) (s.buf.take n)) { s with buf := s.buf.drop n } := by
  simp only [drain]
  rw [drainLoop_eq _ _ _ _ (Nat.min_le_right _ _)]
  rcases Nat.le_total n s.buf.length with h | h
  · simp [Nat.min_eq_left h]
  · simp [Nat.min_eq_right h, List.take_of_length_le h, List.drop_of_length_le h]

/-- `exec` performs the command in the reference configuration (R9). -/
theorem exec_eq_perform (i : Instr) (s : State) : exec i s = .next (perform referenceParams i s) := by
  cases i <;> rfl

/-- What a step can do, in any configuration. -/
theorem stepAt_cases {P : Params G W} {s t : Any.State G W} (h : stepAt P s = .next t) :
    (s.host = [] ∧ t = s) ∨
    (∃ rest, s.host = .reset :: rest ∧ t = powerOnReset P { s with host := rest }) ∨
    (∃ rest, s.host = .consume :: rest ∧ s.rspPending = true ∧ t = consumeResponse { s with host := rest }) ∨
    (∃ rest, s.host = .consume :: rest ∧ s.rspPending = false ∧ t = s) ∨
    (∃ w rest, s.host = .command w :: rest ∧ s.rspPending = true ∧ t = s) ∨
    (∃ w rest, s.host = .command w :: rest ∧ s.rspPending = false ∧ t = performWord P w { s with host := rest }) := by
  unfold stepAt serve at h
  split at h
  · exact .inl ⟨‹_›, by simpa using h.symm⟩
  · exact .inr (.inl ⟨_, ‹_›, by simpa using h.symm⟩)
  · cases hp : s.rspPending with
    | true => exact .inr (.inr (.inl ⟨_, ‹_›, rfl, by simpa [hp] using h.symm⟩))
    | false => exact .inr (.inr (.inr (.inl ⟨_, ‹_›, rfl, by simpa [hp] using h.symm⟩)))
  · cases hp : s.rspPending with
    | true => exact .inr (.inr (.inr (.inr (.inl ⟨_, _, ‹_›, rfl, by simpa [hp] using h.symm⟩))))
    | false =>
      refine .inr (.inr (.inr (.inr (.inr ⟨_, _, ‹_›, rfl, ?_⟩))))
      simp only [hp, acceptWord, Bool.false_eq_true, if_false] at h
      unfold performWord
      split at h <;> simp_all

end Sys2Proof.Machine
end

