-- ==== Sys2Proof/Laws/PerInstr.lean ====
section
/-!
SUPPORT. Statements made for every command, one lemma per constructor.
-/
namespace Sys2Proof.Laws.OpcodeRow

/-- The command's assembler line is well formed (30_encoding.md R80), and its word is an instance of the row of the opcode
map that bears its mnemonic, with the row's 'responds' column as the command has it (R73). -/
def Statement (i : Instr) : Prop :=
  i.wellFormed = true ∧
    ∃ r ∈ opcodeTable, r.mnemonic = i.mnemonic ∧ r.responds = i.responds ∧ r.fits (encode i) = true

/-- The word of a command with no operand, or of format B1, B2 or B3, masked as its row says: bit by bit. -/
theorem masked_ofLanes (o b2 b1 b0 m2 m1 m0 : Byte) (h2 : b2 &&& m2 = 0#8) (h1 : b1 &&& m1 = 0#8)
    (h0 : b0 &&& m0 = 0#8) :
    Machine.ofLanes o b2 b1 b0 &&& Machine.ofLanes 0xFF#8 m2 m1 m0 = Machine.ofLanes o 0#8 0#8 0#8 := by
  apply BitVec.eq_of_getLsbD_eq
  intro k hk
  have bit : ∀ (x y : Byte) (n : Nat), x &&& y = 0#8 → (x.getLsbD n && y.getLsbD n) = false := by
    intro x y n h
    rw [← BitVec.getLsbD_and, h]
    simp
  simp only [BitVec.getLsbD_and, Machine.getLsbD_ofLanes]
  split
  · simpa using bit b0 m0 k h0
  · split
    · simpa using bit b1 m1 _ h1
    · split
      · simpa using bit b2 m2 _ h2
      · have hff : (0xFF#8).getLsbD (k - 24) = true := by
          have : k - 24 < 8 := by omega
          interval_cases k - 24 <;> rfl
        simp [hff]

theorem nop : Statement .nop := by unfold Statement; decide
theorem rstDef : Statement .rstDef := by unfold Statement; decide
theorem ppBegin : Statement .ppBegin := by unfold Statement; decide
theorem ppEnd : Statement .ppEnd := by unfold Statement; decide
theorem drain1 : Statement .drain1 := by unfold Statement; decide
theorem drain2 : Statement .drain2 := by unfold Statement; decide
theorem drain3 : Statement .drain3 := by unfold Statement; decide
theorem flush : Statement .flush := by unfold Statement; decide
theorem rdStatus : Statement .rdStatus := by unfold Statement; decide
theorem rdSize : Statement .rdSize := by unfold Statement; decide
theorem rdTotalLo : Statement .rdTotalLo := by unfold Statement; decide
theorem rdTotalHi : Statement .rdTotalHi := by unfold Statement; decide
theorem rdSeed (i : Fin 8) : Statement (.rdSeed i) := by revert i; unfold Statement; decide

/-- A byte operand is in range for every mnemonic that takes bytes (R80). -/
theorem byte_in_range (b : Byte) : decide (b.toNat < 256) = true := decide_eq_true b.isLt

theorem ppAbs1 (b0 : Byte) : Statement (.ppAbs1 b0) := by
  refine ⟨?_, ⟨.PP_ABS1, .b1, 0x05000000, 0xFFFFFF00, false⟩, by decide, rfl, rfl, ?_⟩
  · simp [Instr.wellFormed, Line.wellFormed, Line.countOk, Line.rangeOk, Instr.line, Instr.mnemonic,
      Mnemonic.operandCount, Mnemonic.operandBound]
    exact byte_in_range b0
  · exact beq_iff_eq.mpr (masked_ofLanes 0x05#8 0#8 0#8 b0 0xFF#8 0xFF#8 0#8 rfl rfl (by simp))

theorem ppAbs2 (b0 b1 : Byte) : Statement (.ppAbs2 b0 b1) := by
  refine ⟨?_, ⟨.PP_ABS2, .b2, 0x06000000, 0xFFFF0000, false⟩, by decide, rfl, rfl, ?_⟩
  · simp [Instr.wellFormed, Line.wellFormed, Line.countOk, Line.rangeOk, Instr.line, Instr.mnemonic,
      Mnemonic.operandCount, Mnemonic.operandBound]
    exact ⟨byte_in_range b0, byte_in_range b1⟩
  · exact beq_iff_eq.mpr (masked_ofLanes 0x06#8 0#8 b1 b0 0xFF#8 0#8 0#8 rfl (by simp) (by simp))

theorem ppAbs3 (b0 b1 b2 : Byte) : Statement (.ppAbs3 b0 b1 b2) := by
  refine ⟨?_, ⟨.PP_ABS3, .b3, 0x07000000, 0xFF000000, false⟩, by decide, rfl, rfl, ?_⟩
  · simp [Instr.wellFormed, Line.wellFormed, Line.countOk, Line.rangeOk, Instr.line, Instr.mnemonic,
      Mnemonic.operandCount, Mnemonic.operandBound]
    exact ⟨byte_in_range b0, byte_in_range b1, byte_in_range b2⟩
  · exact beq_iff_eq.mpr (masked_ofLanes 0x07#8 b2 b1 b0 0#8 0#8 0#8 (by simp) (by simp) (by simp))

theorem add1 (b0 : Byte) : Statement (.add1 b0) := by
  refine ⟨?_, ⟨.ADD1, .b1, 0x11000000, 0xFFFFFF00, false⟩, by decide, rfl, rfl, ?_⟩
  · simp [Instr.wellFormed, Line.wellFormed, Line.countOk, Line.rangeOk, Instr.line, Instr.mnemonic,
      Mnemonic.operandCount, Mnemonic.operandBound]
    exact byte_in_range b0
  · exact beq_iff_eq.mpr (masked_ofLanes 0x11#8 0#8 0#8 b0 0xFF#8 0xFF#8 0#8 rfl rfl (by simp))

theorem add2 (b0 b1 : Byte) : Statement (.add2 b0 b1) := by
  refine ⟨?_, ⟨.ADD2, .b2, 0x12000000, 0xFFFF0000, false⟩, by decide, rfl, rfl, ?_⟩
  · simp [Instr.wellFormed, Line.wellFormed, Line.countOk, Line.rangeOk, Instr.line, Instr.mnemonic,
      Mnemonic.operandCount, Mnemonic.operandBound]
    exact ⟨byte_in_range b0, byte_in_range b1⟩
  · exact beq_iff_eq.mpr (masked_ofLanes 0x12#8 0#8 b1 b0 0xFF#8 0#8 0#8 rfl (by simp) (by simp))

theorem add3 (b0 b1 b2 : Byte) : Statement (.add3 b0 b1 b2) := by
  refine ⟨?_, ⟨.ADD3, .b3, 0x13000000, 0xFF000000, false⟩, by decide, rfl, rfl, ?_⟩
  · simp [Instr.wellFormed, Line.wellFormed, Line.countOk, Line.rangeOk, Instr.line, Instr.mnemonic,
      Mnemonic.operandCount, Mnemonic.operandBound]
    exact ⟨byte_in_range b0, byte_in_range b1, byte_in_range b2⟩
  · exact beq_iff_eq.mpr (masked_ofLanes 0x13#8 b2 b1 b0 0#8 0#8 0#8 (by simp) (by simp) (by simp))

end Sys2Proof.Laws.OpcodeRow
end

