-- ==== Sys2Proof/Tests/Slice0.lean ====
section
/-!
SUPPORT. Tests of one step or one operation, with expected results from spec/95_test_vectors.md or written out from the
spec's encodings, and for every statement with hypotheses a witness that meets them (`test_witness_…`).
-/
namespace Sys2Proof.Tests

open Sys2Proof Sys2Proof.Machine

/-! ### Helpers -/

/-- The state a step leaves. -/
def left : Host.Outcome State Fault Refusal → Option State
  | .next t => some t
  | .fault _ => none
  | .refused _ => none

/-- The seeds of the passphrase "key" (V-H2). -/
def keySeeds : SeedSet :=
  #v[0x2BE1702C, 0xF946067A, 0x27F47922, 0x738EB3C7, 0x38E5D834, 0x7A16FF9C, 0x730EC31D, 0x83B626F8]

/-- The fresh "key" session (V-S1). -/
def keyed : State where
  gen := #v[736194604, 2034632315, 670333218, 1938731975, 954587188, 2048327580, 1930347293, 62269177]
  seed := keySeeds
  cursor := 0
  buf := []
  modePp := true
  ppOpen := false
  ppMsg := [0x6B, 0x65, 0x79]
  errIll := false
  errSeq := false
  errOvf := false
  errPplen := false
  totalHiSnap := 0
  rspPending := false
  rspWord := 0
  drawCount := 1
  host := []

/-- A "key" session with the passphrase "key" absorbed anew and PP_END still to come (R119). -/
def absorbed : State := { keyed with ppOpen := true }

/-- A "key" session holding the bytes of `ADD3 0, 1, 2` (V-D1); its generators are left as they were. -/
def holding : State := { keyed with buf := [0xBB, 0xC9, 0x44] }

/-- A "key" session waiting for the host to consume a response. -/
def waiting : State := { keyed with rspPending := true, rspWord := 0x00000009 }

/-- `BUF_DEPTH` = 4 (V-E4). -/
def shortParams : Params LcgState 64 := { referenceParams with bufDepth := 4 }

/-- `SEED_ORDER` = big-endian (V-H2). -/
def bigEndianParams : Params LcgState 64 := { referenceParams with seedOrder := .bigEndian }

/-- The draw of V-S2, V-R1 and P5. -/
def zeroDraw : Params LcgState 64 := { referenceParams with defaultSeeds := fun _ => #v[0, 0, 0, 0, 0, 0, 0, 0] }

/-- Another configuration (R10): `GEN` has a pair for its state and hands out the bytes of its seed, and `CURSOR_W` is 3. -/
def pairParams : Params (Word × Nat) 3 where
  hash := sha256
  seedOrder := .littleEndian
  gseed := fun s => (s, 0)
  gdraw := fun g => (lane g.1 (g.2 % 4), (g.1, g.2 + 1))
  bufDepth := 4
  ppMaxBytes := 8
  defaultSeeds := fun _ => #v[0x03020100, 0x13121110, 0x23222120, 0x33323130, 0x43424140, 0x53525150, 0x63626160, 0x73727170]

/-! ### Well-formed lines (R80) -/

theorem test_wellFormed_accepts : Line.wellFormed ⟨.ADD2, [0, 255]⟩ = true := by decide
theorem test_wellFormed_refuses_missing_operand : Line.countOk ⟨.ADD2, [0]⟩ = false := by decide
theorem test_wellFormed_refuses_extra_operand : Line.wellFormed ⟨.NOP, [0]⟩ = false := by decide
theorem test_wellFormed_refuses_byte_256 : Line.rangeOk ⟨.PP_ABS1, [256]⟩ = false := by decide
theorem test_wellFormed_refuses_index_8 : Line.rangeOk ⟨.RD_SEED, [8]⟩ = false := by decide
theorem test_assemble_refuses_index_8 : assemble ⟨.RD_SEED, [8]⟩ = none := by decide
theorem test_assemble_refuses_byte_256 : assemble ⟨.ADD3, [0, 256, 0]⟩ = none := by decide

/-! ### Words written out bit by bit from R70-R73: OPC, then bits [23:16], [15:8], [7:0] -/

theorem test_decode_nop : decode 0b00000000_00000000_00000000_00000000 = .command .nop := by decide
theorem test_decode_rstDef : decode 0b00000001_00000000_00000000_00000000 = .command .rstDef := by decide
theorem test_decode_ppBegin : decode 0b00000100_00000000_00000000_00000000 = .command .ppBegin := by decide
theorem test_decode_ppAbs1 :
    decode 0b00000101_00000000_00000000_10000001 = .command (.ppAbs1 0x81) := by decide
theorem test_decode_ppAbs2 :
    decode 0b00000110_00000000_01100101_01101011 = .command (.ppAbs2 0x6B 0x65) := by decide
theorem test_decode_ppAbs3 :
    decode 0b00000111_01111001_01100101_01101011 = .command (.ppAbs3 0x6B 0x65 0x79) := by decide
theorem test_decode_ppEnd : decode 0b00001000_00000000_00000000_00000000 = .command .ppEnd := by decide
theorem test_decode_add1 :
    decode 0b00010001_00000000_00000000_00000001 = .command (.add1 0x01) := by decide
theorem test_decode_add2 :
    decode 0b00010010_00000000_11110000_00001111 = .command (.add2 0x0F 0xF0) := by decide
theorem test_decode_add3 :
    decode 0b00010011_00000010_00000001_00000000 = .command (.add3 0x00 0x01 0x02) := by decide
theorem test_decode_drain1 : decode 0b00100001_00000000_00000000_00000000 = .command .drain1 := by decide
theorem test_decode_drain2 : decode 0b00100010_00000000_00000000_00000000 = .command .drain2 := by decide
theorem test_decode_drain3 : decode 0b00100011_00000000_00000000_00000000 = .command .drain3 := by decide
theorem test_decode_flush : decode 0b00100100_00000000_00000000_00000000 = .command .flush := by decide
theorem test_decode_rdStatus : decode 0b00110000_00000000_00000000_00000000 = .command .rdStatus := by decide
theorem test_decode_rdSize : decode 0b00110001_00000000_00000000_00000000 = .command .rdSize := by decide
theorem test_decode_rdTotalLo : decode 0b00110010_00000000_00000000_00000000 = .command .rdTotalLo := by decide
theorem test_decode_rdTotalHi : decode 0b00110011_00000000_00000000_00000000 = .command .rdTotalHi := by decide
theorem test_decode_rdSeed :
    decode 0b00111110_00000000_00000000_00000000 = .command (.rdSeed 6) := by decide

/-- The illegal words of V-E1 and 2.7, with the reason the spec gives each. -/
theorem test_decode_illegal :
    (([0x02000000, 0xFF000000, 0x34000000, 0x10000000, 0x20000000, 0x25000000] : List Word).map decode =
      List.replicate 6 (.illegal .unlistedOpcode)) ∧
    (([0x00000001, 0x11000100, 0x3F000001, 0x30000001, 0x05FFFFFF, 0x12FF0000] : List Word).map decode =
      List.replicate 6 (.illegal .reservedBitSet)) := by decide

/-- The words P1 to P3 print beside their lines (R80). -/
theorem test_assemble_words :
    assemble ⟨.PP_ABS3, [0x6B, 0x65, 0x79]⟩ = some 0x0779656B ∧ assemble ⟨.ADD3, [3, 4, 5]⟩ = some 0x13050403 ∧
    assemble ⟨.ADD1, [9]⟩ = some 0x11000009 ∧ assemble ⟨.RD_SEED, [7]⟩ = some 0x3F000000 := by decide

/-- `PP_ABS3 'k','e','y' ; comment` (V-S3's line, with the word of P1). -/
theorem test_assembleText_characters :
    assembleText
      ['P', 'P', '_', 'A', 'B', 'S', '3', ' ', '\'', 'k', '\'', ',', '\'', 'e', '\'', ',', '\'', 'y', '\'', ' ',
        ';', ' ', '1'] = some [0x0779656B] := by decide

/-- `ADD2 0xFF, 255` and the assembly error `ADD1 256` (R80). -/
theorem test_assembleText_numbers :
    assembleText ['A', 'D', 'D', '2', ' ', '0', 'x', 'F', 'F', ',', ' ', '2', '5', '5'] = some [0x1200FFFF] ∧
    assembleText ['A', 'D', 'D', '1', ' ', '2', '5', '6'] = none := by decide

/-- The layout of P2: a command, a comment-only line and a blank line; the word of P1. And a character with no ASCII code is an
assembly error, and `';'` is a literal (log entry 15). -/
theorem test_assembleProgram :
    assembleProgram [['A', 'D', 'D', '1', ' ', '9', ' ', ';', 'x'], [' ', ';', ' ', 'y'], []] = some [0x11000009] ∧
    assembleText ['A', 'D', 'D', '1', ' ', '\'', 'é', '\''] = none ∧
    assembleText ['A', 'D', 'D', '1', '\'', ';', '\''] = some [0x1100003B] := by decide

/-- The expansions of P2 and P5 and of R81. -/
theorem test_expand_pseudo :
    (expandPassphrase [0x6B, 0x65, 0x79]).map encode = [0x04000000, 0x0779656B, 0x08000000] ∧
    (expandAdd [0, 1, 2, 3, 4, 5, 6, 7, 8, 9]).map encode = [0x13020100, 0x13050403, 0x13080706, 0x11000009] ∧
    expandAdd [] = [] := by decide

/-! ### The reference algorithms -/

/-- V-H2: the digest of "key", its seeds in both orders. -/
theorem test_derive_key :
    derive referenceParams [0x6B, 0x65, 0x79] = keySeeds ∧
    derive bigEndianParams [0x6B, 0x65, 0x79] =
      #v[0x2C70E12B, 0x7A0646F9, 0x2279F427, 0xC7B38E73, 0x34D8E538, 0x9CFF167A, 0x1DC30E73, 0xF826B683] := by
  decide +kernel

/-- In the configuration `pairParams`, at the last cursor value: instance 7 gives the low byte of its seed, instance 0 that
of its own, and the cursor wraps to 0 between them (R167, R168). -/
theorem test_other_configuration :
    ((perform pairParams (.add2 0x00 0x01)
      { perform pairParams .rstDef
          { gen := Vector.ofFn fun _ => (0, 0), seed := Vector.ofFn fun _ => 0, cursor := 0, buf := [],
            modePp := false, ppOpen := false, ppMsg := [], errIll := false, errSeq := false, errOvf := false,
            errPplen := false, totalHiSnap := 0, rspPending := false, rspWord := 0, drawCount := 0, host := [] } with
        cursor := 7 }).buf = [0x70, 0x01]) ∧
    selector (7 + 1 : Count 3) = 0 := by decide

/-- V-H4. -/
theorem test_derive_abc :
    derive referenceParams [0x61, 0x62, 0x63] =
      #v[0xBF1678BA, 0xEACF018F, 0xDE404141, 0x2322AE5D, 0xA36103B0, 0x9C7A1796, 0x61FF10B4, 0xAD1500F2] := by
  decide +kernel

/-- V-H5: two blocks; whole, and by the incremental hasher (R123). -/
theorem test_hash_two_blocks :
    derive referenceParams (List.replicate 100 0x61) =
      #v[0x78591628, 0xD3A0E488, 0xB8826BA3, 0x32AB1633, 0xF0B80E68, 0xB9D38C0F, 0x2481D604, 0x0E5A286D] ∧
    slice .littleEndian (hashFinish ((List.replicate 100 0x61).foldl hashAbsorb hashBegin)) =
      #v[0x78591628, 0xD3A0E488, 0xB8826BA3, 0x32AB1633, 0xF0B80E68, 0xB9D38C0F, 0x2481D604, 0x0E5A286D] := by
  decide +kernel

/-- V-G1. -/
theorem test_lcgSeed :
    ([0x00000000, 0x00000001, 0x00000005, 0x7FFFFFFE, 0x7FFFFFFF, 0x80000000, 0x80000004, 0xFFFFFFFE, 0xFFFFFFFF] :
      List Word).map lcgSeed = [1, 1, 5, 2147483646, 1, 1, 5, 1, 1] := by decide

/-- V-G2. -/
theorem test_lcgDraw :
    ([1, 16807, 2147483646, 1819617696, 1079811049, 739806647] : List LcgState).map lcgDraw =
      [(0, 16807), (33, 282475249), (255, 2147466840), (255, 2147483392), (255, 2143214669), (255, 2147466840)] := by
  decide

/-- V-K3. -/
theorem test_keystream :
    (List.range 24).map (keystream referenceParams keySeeds) =
      [0xBB, 0xC8, 0x46, 0x3B, 0xF3, 0xF7, 0x9C, 0x57, 0xDA, 0x66, 0xD0, 0xCB] ++
      [0x4C, 0x44, 0x44, 0xCF, 0xF4, 0xEC, 0x2A, 0x9E, 0xC0, 0x0B, 0x46, 0x8C] := by decide +kernel

/-! ### One step of each command -/

/-- V-M1. -/
theorem test_nop : left (exec .nop holding) = some holding := by decide

/-- V-S2, and V-S3's STATUS with a passphrase open. -/
theorem test_rstDef :
    (perform zeroDraw .rstDef holding).gen = #v[1, 1, 1, 1, 1, 1, 1, 1] ∧
    statusWord zeroDraw (perform zeroDraw .rstDef holding) = 0x00000001 ∧
    statusWord zeroDraw (perform zeroDraw .rstDef { holding with ppOpen := true }) = 0x00000005 := by decide

/-- V-H6: PP_BEGIN discards what was absorbed. -/
theorem test_ppBegin :
    (left (exec .ppBegin { absorbed with ppMsg := [0x7A, 0x7A] })).map (fun t => (t.ppOpen, t.ppMsg)) =
      some (true, []) := by decide

/-- R120: the byte goes behind those absorbed. -/
theorem test_ppAbs1 :
    (left (exec (.ppAbs1 0x79) { absorbed with ppMsg := [0x6B, 0x65] })).map Any.State.ppMsg =
      some [0x6B, 0x65, 0x79] := by decide

/-- V-E2: no passphrase open. -/
theorem test_ppAbs1_rejected :
    (left (exec (.ppAbs1 0x41) keyed)).map (fun t => (statusWord referenceParams t, t.ppMsg)) =
      some (0x00000209, [0x6B, 0x65, 0x79]) := by decide

/-- R121: lane 0 is absorbed first. -/
theorem test_ppAbs2 :
    (left (exec (.ppAbs2 0x65 0x79) { absorbed with ppMsg := [0x6B] })).map Any.State.ppMsg =
      some [0x6B, 0x65, 0x79] := by decide

/-- V-E5 with a `PP_MAX_BYTES` of 4: PP_ABS2 after 3 bytes is rejected, PP_ABS1 is not. -/
theorem test_ppAbs2_too_long :
    statusWord { referenceParams with ppMaxBytes := 4 }
      (perform { referenceParams with ppMaxBytes := 4 } (.ppAbs2 0 0) absorbed) = 0x0000080D ∧
    (perform { referenceParams with ppMaxBytes := 4 } (.ppAbs1 0) absorbed).ppMsg = [0x6B, 0x65, 0x79, 0] := by decide

/-- R122. -/
theorem test_ppAbs3 :
    (left (exec (.ppAbs3 0x6B 0x65 0x79) { absorbed with ppMsg := [] })).map Any.State.ppMsg =
      some [0x6B, 0x65, 0x79] := by decide

/-- V-S1, from a state with errors and bytes (V-S4). -/
theorem test_ppEnd :
    left (exec .ppEnd { absorbed with buf := [1], cursor := 9, errIll := true, errSeq := true, seed := 0 }) =
      some keyed := by decide +kernel

/-- V-E2: PP_END with no passphrase open. -/
theorem test_ppEnd_rejected :
    left (exec .ppEnd keyed) = some { keyed with errSeq := true } := by decide

/-- V-A1. -/
theorem test_add1 :
    (left (exec (.add1 0x00) keyed)).map (fun t => (t.buf, t.cursor, statusWord referenceParams t)) =
      some ([0xBB], 1, 0x8) := by decide

/-- V-A2: the cursor wraps and instance 7 is drawn from (its first byte is 0x57 and its new state is in V-G3). -/
theorem test_add1_wraps :
    (left (exec (.add1 0x00) { keyed with cursor := 0xFFFFFFFFFFFFFFFF })).map
      (fun t => (t.buf, t.cursor, t.gen[7])) = some ([0x57], 0, 733521750) := by decide

/-- V-A1. -/
theorem test_add2 :
    (left (exec (.add2 0x00 0x01) keyed)).map (fun t => (t.buf, t.cursor, statusWord referenceParams t)) =
      some ([0xBB, 0xC9], 2, 0x8) := by decide

/-- V-A1, with the generators of V-G3. -/
theorem test_add3 :
    (left (exec (.add3 0x00 0x01 0x02) keyed)).map (fun t => (t.buf, t.cursor, t.gen)) =
      some ([0xBB, 0xC9, 0x44], 3,
        #v[1569419061, 1683207024, 591182764, 1938731975, 954587188, 2048327580, 1930347293, 62269177]) := by decide

/-- P4, row 5: with room for one byte of four, ADD3 adds nothing and sets ERR_OVF. -/
theorem test_add3_rejected :
    perform shortParams (.add3 3 4 5) holding = { holding with errOvf := true } ∧
    statusWord shortParams (perform shortParams (.add3 3 4 5) holding) = 0x408 := by decide

/-- R173's corner case: with `BUF_DEPTH` − 2 bytes buffered ADD3 is rejected, and ADD2 is accepted after it (log entry 20). -/
theorem test_add2_after_rejected_add3 :
    (perform shortParams (.add3 3 4 5) { holding with buf := [0xBB, 0xC9] }).buf = [0xBB, 0xC9] ∧
    (perform shortParams (.add2 0x00 0x01)
      (perform shortParams (.add3 3 4 5) { holding with buf := [0xBB, 0xC9] })).buf = [0xBB, 0xC9, 0xBB, 0xC9] := by
  decide

/-- V-E4: the reserved bit decides before the room does. -/
theorem test_precedence :
    statusWord shortParams (performWord shortParams 0x11000104
      { holding with buf := [0xBB, 0xC9, 0x44, 0x38], errOvf := true }) = 0x0000050A := by decide

/-- V-D1, and the empty drain. -/
theorem test_drain1 :
    (left (exec .drain1 holding)).map (fun t => (t.rspWord, t.buf)) = some (0x010000BB, [0xC9, 0x44]) ∧
    (left (exec .drain1 keyed)).map (fun t => (t.rspPending, t.rspWord)) = some (true, 0x00000000) := by decide

/-- V-D1, and V-D2's drain of one byte by DRAIN2. -/
theorem test_drain2 :
    (left (exec .drain2 holding)).map (fun t => (t.rspWord, t.buf)) = some (0x0200C9BB, [0x44]) ∧
    (left (exec .drain2 { keyed with buf := [0xF7] })).map Any.State.rspWord = some 0x010000F7 := by decide

/-- V-D1. -/
theorem test_drain3 :
    (left (exec .drain3 holding)).map (fun t => (t.rspWord, t.buf)) = some (0x0344C9BB, []) := by decide

/-- V-D2: the cursor stays. -/
theorem test_flush :
    (left (exec .flush { holding with cursor := 3 })).map (fun t => (t.buf, t.cursor, statusWord referenceParams t)) =
      some ([], 3, 0x9) := by decide

/-- V-D3, and V-E3's accumulated errors. -/
theorem test_rdStatus :
    (left (exec .rdStatus holding)).map Any.State.rspWord = some 0x00000008 ∧
    (left (exec .rdStatus { keyed with errIll := true, errSeq := true })).map Any.State.rspWord = some 0x00000309 := by
  decide

/-- V-D3. -/
theorem test_rdSize :
    (left (exec .rdSize { keyed with buf := [0xBB, 0xC9] })).map Any.State.rspWord = some 0x00000002 := by decide

/-- V-D4. -/
theorem test_rdTotalLo :
    (left (exec .rdTotalLo { keyed with cursor := 0x0000000500000010 })).map (fun t => (t.rspWord, t.totalHiSnap)) =
      some (0x00000010, 5) := by decide

/-- V-D4: the snapshot answers, not the cursor. -/
theorem test_rdTotalHi :
    (left (exec .rdTotalHi { keyed with cursor := 0x0000000700000010, totalHiSnap := 5 })).map Any.State.rspWord =
      some 0x00000005 := by decide

/-- V-M2. -/
theorem test_rdSeed :
    (left (exec (.rdSeed 0) keyed)).map Any.State.rspWord = some 0x2BE1702C ∧
    (left (exec (.rdSeed 7) keyed)).map Any.State.rspWord = some 0x83B626F8 := by decide

/-- V-E1: each of the five words, sent to a fresh "key" session. -/
theorem test_illegal_words :
    ([0x02000000, 0x00000001, 0x11000100, 0x3F000001, 0xFF000000] : List Word).map
      (fun w => left (step { keyed with host := [.command w] })) =
      List.replicate 5 (some { keyed with errIll := true }) := by decide

/-- V-R1, by `rst_n` during a pending response. -/
theorem test_reset_input :
    (powerOnReset zeroDraw waiting).gen = #v[1, 1, 1, 1, 1, 1, 1, 1] ∧
    statusPort zeroDraw (powerOnReset zeroDraw waiting) = 0x00000001 ∧
    rspValid (powerOnReset zeroDraw waiting) = false := by decide

/-- R39: the fields of the reset state the spec gives a value, whatever the draw. -/
theorem test_reset :
    State.reset.cursor = 0 ∧ State.reset.buf = [] ∧ statusPort referenceParams State.reset = 0x00000001 :=
  ⟨rfl, rfl, rfl⟩

/-- The first step after reset runs the word placed for it: `11000000` is ADD1 0x00 (V-A1). -/
theorem test_placed_word :
    step (State.reset.withFetchWord 32 0x11000000) = exec (.add1 0x00) State.reset := rfl

/-! ### Witnesses: concrete states and operands that meet the hypotheses of each statement together -/

/-- For `EncodeInvertsDecode`. -/
theorem test_witness_encodeInvertsDecode : decode 0x13020100 = .command (.add3 0x00 0x01 0x02) := by decide

/-- For `AWordIsTheCommandWhoseRowItFits`: the last row, at its first and last word. -/
theorem test_witness_opcodeRows :
    OpcodeRow.mk .RD_SEED .z 0x38000000 0xF8FFFFFF true ∈ opcodeTable ∧
    decode 0x38000000 = .command (.rdSeed 0) ∧ decode 0x3F000000 = .command (.rdSeed 7) ∧
    (Instr.rdSeed 7).mnemonic = .RD_SEED := by decide

/-- For `ReservedBitsMakeAWordIllegal`: a row of each format; the lowest and the highest reserved bit, and no reserved bit. -/
theorem test_witness_reservedBits :
    (OpcodeRow.mk .NOP .z 0x00000000 0xFFFFFFFF false ∈ opcodeTable ∧
      (0x00000001 : Word) &&& (0xFFFFFFFF &&& 0xFF000000) = 0x00000000 ∧ (0x00000001 : Word) &&& 0x00FFFFFF ≠ 0 ∧
      (0x00800000 : Word) &&& 0x00FFFFFF ≠ 0) ∧
    (OpcodeRow.mk .ADD1 .b1 0x11000000 0xFFFFFF00 false ∈ opcodeTable ∧
      (0x11000100 : Word) &&& (0xFFFFFF00 &&& 0xFF000000) = 0x11000000 ∧ (0x11000100 : Word) &&& 0x00FFFF00 ≠ 0 ∧
      (0x110000FF : Word) &&& (0xFFFFFF00 &&& 0xFF000000) = 0x11000000 ∧ (0x110000FF : Word) &&& 0x00FFFF00 = 0) ∧
    (OpcodeRow.mk .ADD2 .b2 0x12000000 0xFFFF0000 false ∈ opcodeTable ∧
      (0x12010000 : Word) &&& (0xFFFF0000 &&& 0xFF000000) = 0x12000000 ∧ (0x12010000 : Word) &&& 0x00FF0000 ≠ 0 ∧
      (0x1200FFFF : Word) &&& 0x00FF0000 = 0) ∧
    (OpcodeRow.mk .ADD3 .b3 0x13000000 0xFF000000 false ∈ opcodeTable ∧
      (0x13FFFFFF : Word) &&& (0xFF000000 &&& 0xFF000000) = 0x13000000) := by decide

/-- For `ALineAssemblesToItsCommandsWord`: operands at the ends of their ranges. -/
theorem test_witness_lines :
    assemble ⟨.ADD3, [0, 255, 0]⟩ = some 0x1300FF00 ∧ assemble ⟨.RD_SEED, [7]⟩ = some 0x3F000000 := by decide

/-- For `StepPerformsTheDecodedCommand` and `StepRejectsAnIllegalWord`. -/
theorem test_witness_offered :
    ({ keyed with host := [.command 0x11000000] } : State).host = .command 0x11000000 :: [] ∧
    ({ keyed with host := [.command 0x11000000] } : State).rspPending = false ∧
    decode 0x11000000 = .command (.add1 0) ∧ decode 0x02000000 = .illegal .unlistedOpcode ∧
    decode 0x00000001 = .illegal .reservedBitSet := by decide

/-- For `APendingResponseHoldsTheNextCommand`, both inputs. -/
theorem test_witness_pending :
    waiting.rspPending = true ∧
    ({ waiting with host := [.command 0x11000000] } : State).host = .command 0x11000000 :: [] ∧
    ({ waiting with host := [.consume] } : State).host = .consume :: [] := by decide

/-- For `NothingElseChangesTheState`: no input, a word offered too early, and a wait for a response that is not coming. -/
theorem test_witness_nothingElse :
    ([keyed, { waiting with host := [.command 0x11000000] }, { keyed with host := [.consume] }] : List State).all
      (fun s => !accepts s && !consumes s && rstN s) = true := by decide

/-- For `ResetInputReachesThePowerOnState`. -/
theorem test_witness_resetInput : ({ waiting with host := [.reset] } : State).host = .reset :: [] := by decide

/-- For `ThePlacedWordRunsNext`: the first and the last opcode. -/
theorem test_witness_placed :
    decodeTableWord 32 0x00000000 = some .nop ∧ decodeTableWord 32 0x3F000000 = some (.rdSeed 7) := by decide

/-- For `TwoStepsMakeOneTransaction`. -/
theorem test_witness_transaction :
    ({ keyed with host := [.command 0x30000000, .consume] } : State).rspPending = false ∧
    decode 0x30000000 = .command .rdStatus ∧ Instr.rdStatus.responds = true := by decide

/-- For `PpEndStartsThePassphraseSession`, accepted and rejected. -/
theorem test_witness_ppEnd : absorbed.ppOpen = true ∧ keyed.ppOpen = false := by decide

/-- For `Add1CombinesOneByte` to `Add3CombinesThreeBytesOrNone`: the instances at the wrap of the selector and of the
cursor. -/
theorem test_witness_add :
    (7 : Fin 8).val = (0xFFFFFFFFFFFFFFFF : Count 64).toNat % 8 ∧
    (0 : Fin 8).val = ((0xFFFFFFFFFFFFFFFF : Count 64).toNat + 1) % 8 ∧
    (1 : Fin 8).val = ((0xFFFFFFFFFFFFFFFF : Count 64).toNat + 2) % 8 := by decide

/-- For the same statements: a buffer with room for one byte takes ADD1 and not ADD2 or ADD3; a full one takes none. -/
theorem test_witness_add_room :
    (List.replicate 4095 (0 : Byte)).length + 1 ≤ 4096 ∧ (List.replicate 4095 (0 : Byte)).length + 2 > 4096 ∧
    (List.replicate 4096 (0 : Byte)).length + 1 > 4096 ∧ (List.replicate 4093 (0 : Byte)).length + 3 ≤ 4096 := by
  simp only [List.length_replicate]; omega

/-- For `PpAbs1AppendsOneByte` to `PpAbs3AppendsThreeBytesOrNone`: open and not; the bound on the length needs no
witness, as the statements assume nothing. -/
theorem test_witness_ppAbs :
    absorbed.ppOpen = true ∧ absorbed.ppMsg.length + 3 ≤ 2 ^ 61 - 1 ∧ keyed.ppOpen = false := by decide

/-- For `DrainAnswersTheOldestBytes`: filled lanes, a lane beyond the buffer and a lane beyond the count. -/
theorem test_witness_drain :
    (Instr.drain1, 1) ∈ [(Instr.drain1, 1), (Instr.drain2, 2), (Instr.drain3, 3)] ∧
    (Instr.drain3, 3) ∈ [(Instr.drain1, 1), (Instr.drain2, 2), (Instr.drain3, 3)] ∧
    (left (exec .drain3 { keyed with buf := [0xBB, 0xC9] })).map (fun t => lane t.rspWord 2) = some 0 ∧
    (left (exec .drain1 holding)).map (fun t => lane t.rspWord 1) = some 0 := by decide

/-- For `RdSizeAnswersTheBufferLength` (its inner premise): an empty and a full buffer. -/
theorem test_witness_rdSize :
    keyed.buf.length = 0 ∧ ({ keyed with buf := List.replicate 4096 0 } : State).buf.length = 4096 := by
  exact ⟨rfl, List.length_replicate ..⟩

/-- For `ARejectedCommandSetsOneBitAndNothingElse` and `ErrorBitsAreStickyUntilASessionStart`: an illegal word, and each error
a decoded command can be rejected with. -/
theorem test_witness_rejection :
    decode 0x11000100 = .illegal .reservedBitSet ∧ rejection referenceParams (.ppAbs1 0) keyed = some .seq ∧
    rejection { referenceParams with ppMaxBytes := 3 } (.ppAbs1 0) absorbed = some .pplen ∧
    rejection shortParams (.add2 0 0) holding = some .ovf := by decide

/-- For `EachElementIsWrittenByItsOwnCommandsOnly`: NOP meets every clause's hypotheses, and a rejected PP_END those of
the first. A DRAIN meets none of the premises of the buffer's clause. -/
theorem test_witness_writers :
    startsSession .nop keyed = false ∧ isDrain .nop = false ∧ Instr.nop ≠ .flush ∧
    rejection referenceParams .nop keyed = none ∧ rejection referenceParams (.add1 0) keyed = none ∧
    startsSession .ppEnd keyed = false ∧ addData .nop = [] ∧
    Instr.nop ≠ .rdTotalLo ∧ Instr.nop ≠ .ppBegin ∧ Instr.nop ≠ .ppEnd ∧ absorbData .nop = [] ∧
    Instr.nop.responds = false ∧ Instr.nop ≠ .rstDef := by decide

/-- For `HasherAndSessionAreIndependent`: a command of each kind it names. -/
theorem test_witness_independence :
    absorbData (.ppAbs1 0) ≠ [] ∧ addData (.add1 0) ≠ [] ∧ isDrain .drain1 = true ∧ keyed.ppOpen = false ∧
    Instr.rdStatus ≠ .ppEnd := by decide

/-- For `ExactlyTheRespondingCommandsRespond`: a responding and a silent command, and no response pending. -/
theorem test_witness_responding :
    keyed.rspPending = false ∧ (transact referenceParams 0x30000000 keyed).2.isSome = true ∧
    (transact referenceParams 0x00000000 keyed).2.isSome = false := by decide

/-- For `TheBufferIsAQueue`: both clauses. -/
theorem test_witness_queue :
    startsSession .ppEnd absorbed = true ∧ startsSession .drain3 holding = false ∧ Instr.drain3 ≠ .flush ∧
    startsSession (.add1 0) holding = false := by decide

/-- For `StatusFieldsAreComputedFromState`: the ends of the reserved fields, and valid parameters. -/
theorem test_witness_status :
    ([4, 7, 12, 31].all fun k => !(statusWord referenceParams
      { absorbed with errIll := true, errSeq := true, errOvf := true, errPplen := true }).getLsbD k) = true ∧
    (3 ≤ referenceParams.bufDepth ∧ referenceParams.bufDepth ≤ 2 ^ 32 - 1 ∧ 3 ≤ 64) := by decide

/-- For `TheGeneratorStaysInItsRange` and `ADrawTakesOneOrTwoSteps`: the ends of the range, the states of V-G2 on either
side of the acceptance, and one pass of the loop. -/
theorem test_witness_generator :
    (([1, 2147483646, 1819617696, 1079811049] : List LcgState).all
      fun x => decide (1 ≤ x.toNat ∧ x.toNat ≤ 2147483646)) = true ∧
    (lcgStep 1819617696).toNat - 1 < 2147483392 ∧ 2147483392 ≤ (lcgStep 1079811049).toNat - 1 ∧
    lcgDrawLoop 1 1079811049 = lcgDraw 1079811049 := by decide

/-- For `PaddingFillsWholeBlocks` and `TheIncrementalHasherEqualsSha256`: a message that leaves room for the padding in
its block, and one byte more. -/
theorem test_witness_padding :
    (List.replicate 55 (0 : Byte)).length ≤ 2 ^ 61 - 1 ∧ (shaPad (List.replicate 55 0)).length = 64 ∧
    (List.replicate 56 (0 : Byte)).length ≤ 2 ^ 61 - 1 ∧ (shaPad (List.replicate 56 0)).length = 128 := by decide +kernel

/-- For `SeedsAreTheDigestWindows`: equal slices, of equal digests. -/
theorem test_witness_slice :
    slice .littleEndian (Vector.ofFn fun k : Fin 32 => BitVec.ofNat 8 k.val) =
      slice .littleEndian (Vector.ofFn fun k : Fin 32 => BitVec.ofNat 8 (0 + k.val)) := by decide

/-- The fresh "key" session is at position 0. -/
theorem test_witness_atPosition : AtPosition referenceParams keyed 0 := by unfold AtPosition; decide

/-- For `EveryStepKeepsTheInvariant`. -/
theorem test_witness_invariant :
    StateInv referenceParams { keyed with host := [.command 0x11000000] } ∧
    GensInRange { keyed with host := [.command 0x11000000] } ∧
    (left (step { keyed with host := [.command 0x11000000] })).isSome = true := by
  refine ⟨⟨?_, 0, test_witness_atPosition⟩, ?_, ?_⟩
  · unfold StoresFit; decide
  · unfold GensInRange; decide
  · decide

/-- For `EveryConfigurationKeepsItsInvariant`: another configuration, with its buffer full. -/
theorem test_witness_invariant_other :
    StateInv shortParams { keyed with buf := [1, 2, 3, 4], host := [.command 0x21000000] } ∧
    (left (stepAt shortParams { keyed with buf := [1, 2, 3, 4], host := [.command 0x21000000] })).isSome = true := by
  refine ⟨⟨?_, 0, test_witness_atPosition⟩, ?_⟩
  · unfold StoresFit; decide
  · decide

/-- For `TheAddPseudoInstructionAddsItsChunk`: a chunk that fills the buffer. -/
theorem test_witness_addPseudo :
    keyed.rspPending = false ∧ keyed.buf.length + ([0, 1, 2, 3] : List Byte).length ≤ shortParams.bufDepth := by decide

/-- For `ThePassphrasePseudoInstructionStartsItsSession`: a passphrase of `PP_MAX_BYTES`. -/
theorem test_witness_passphrasePseudo :
    holding.rspPending = false ∧
    ([0x6B, 0x65, 0x79] : List Byte).length ≤
      ({ referenceParams with ppMaxBytes := 3 } : Params LcgState 64).ppMaxBytes := by decide

/-- For `PositionalPurity` and `ChunkInvariance`. -/
theorem test_witness_session :
    AtPosition referenceParams keyed 0 ∧ Fresh referenceParams keyed ∧
    inSession referenceParams [0x13020100, 0x23000000, 0x11000003] keyed = true ∧
    ([0x13020100, 0x23000000, 0x11000003] : List Word).all notFlush = true := by
  refine ⟨test_witness_atPosition, ?_, ?_⟩
  · unfold Fresh; decide
  · decide

/-- For `SelfInverse`: P1's pattern on three bytes, both clauses. -/
theorem test_witness_selfInverse :
    absorbed.ppOpen = true ∧
    inSession referenceParams [0x13020100, 0x23000000] (perform referenceParams .ppEnd absorbed) = true ∧
    inSession referenceParams [0x1344C9BB, 0x23000000] (perform referenceParams .ppEnd absorbed) = true ∧
    ([0x13020100, 0x23000000, 0x1344C9BB] : List Word).all notFlush = true ∧
    (run referenceParams [0x1344C9BB, 0x23000000] (perform referenceParams .ppEnd absorbed)).added =
      (run referenceParams [0x13020100, 0x23000000] (perform referenceParams .ppEnd absorbed)).drained ∧
    (run referenceParams [0x13020100, 0x23000000] (perform referenceParams .ppEnd absorbed)).final.buf = [] ∧
    (run referenceParams [0x1344C9BB, 0x23000000] (perform referenceParams .ppEnd absorbed)).final.buf = [] := by
  decide +kernel

/-- For `SessionsOnOnePassphraseAreEqual`: two different states before PP_END. -/
theorem test_witness_sessions :
    absorbed.ppOpen = true ∧ ({ absorbed with cursor := 5, buf := [1], errIll := true } : State).ppOpen = true ∧
    absorbed.ppMsg = ({ absorbed with cursor := 5, buf := [1], errIll := true } : State).ppMsg ∧
    absorbed.rspPending = false ∧ decode 0x13020100 = .command (.add3 0x00 0x01 0x02) ∧
    usesSessionOnly (.add3 0x00 0x01 0x02) = true := by decide

/-- For `TheTwoTotalReadsGiveTheCount`: an add and a NOP between the reads. -/
theorem test_witness_totals :
    AtPosition referenceParams keyed 0 ∧
    inSession referenceParams [0x11000000, 0x00000000] (transact referenceParams (encode .rdTotalLo) keyed).1 = true ∧
    (∀ w ∈ ([0x11000000, 0x00000000] : List Word), decode w ≠ .command .rdTotalLo) := by
  refine ⟨test_witness_atPosition, by decide, fun w hw => ?_⟩
  simp only [List.mem_cons, List.not_mem_nil, or_false] at hw
  rcases hw with rfl | rfl <;> decide

/-- For `DumpReturnsTheWholeBuffer`: three bytes need two drains (P2's first dump, with its responses). -/
theorem test_witness_dump :
    holding.rspPending = false ∧ holding.buf.length / 3 < 2 ∧
    (dump referenceParams { holding with cursor := 3 }).drains = [0x0344C9BB, 0x00000000] ∧
    (dump referenceParams { holding with cursor := 3 }).bytes = [0xBB, 0xC9, 0x44] ∧
    (dump referenceParams { holding with cursor := 3 }).total = some 3 := by decide

/-- For `AReissuedAddGetsTheSameKeystream`: P4, rows 5 to 8. -/
theorem test_witness_reissue :
    rejection shortParams (.add3 3 4 5) holding = some .ovf ∧ holding.rspPending = false ∧
    (run shortParams (encode (.add3 3 4 5) :: List.replicate 1 (encode .drain3)) holding).final.buf.length +
      (addData (.add3 3 4 5)).length ≤ shortParams.bufDepth := by decide

/-- For `ACleanEndMeansNothingWasRejected`: the second of two words. -/
theorem test_witness_cleanEnd :
    inSession referenceParams [0x11000000, 0x23000000] keyed = true ∧
    Clean (run referenceParams [0x11000000, 0x23000000] keyed).final ∧
    ([0x11000000, 0x23000000] : List Word) = [0x11000000] ++ 0x23000000 :: [] := by
  refine ⟨by decide, ?_, rfl⟩
  intro e
  cases e <;> decide

end Sys2Proof.Tests
end

