-- ==== Sys2Proof/Proofs/State.lean ====
section
/-!
The rules a command's effect follows by its kind (absorb, add, session start), and from them the statements about the
state: the reset values (R39), STATUS (R35), the sticky error bits (R32) and the independence of hasher and session (R30).
-/
namespace Sys2Proof.Machine

variable {G : Type} {W : Nat} {P : Params G W} {i : Instr} {s : Any.State G W}

/-! ### The effect of a command, by kind -/

/-- PP_ABSn is the shared absorb of its bytes (R120-R122). -/
theorem perform_of_absorbData (h : absorbData i ≠ []) : perform P i s = absorbBytes P (absorbData i) s := by
  cases i <;> simp [absorbData] at h <;> rfl

/-- ADDn is the shared add of its bytes (R171-R173). -/
theorem perform_of_addData (h : addData i ≠ []) : perform P i s = addBytes P (addData i) s := by
  cases i <;> simp [addData] at h <;> rfl

theorem rejection_of_absorbData (h : absorbData i ≠ []) :
    rejection P i s =
      if s.ppOpen = false then some .seq
      else if s.ppMsg.length + (absorbData i).length > P.ppMaxBytes then some .pplen else none := by
  cases i <;> simp [absorbData] at h <;> rfl

theorem rejection_of_addData (h : addData i ≠ []) :
    rejection P i s = if s.buf.length + (addData i).length > P.bufDepth then some .ovf else none := by
  cases i <;> simp [addData] at h <;> rfl

/-- What PP_ABSn can do, with the error that rejects it (R120-R122, R251). -/
theorem perform_absorb_cases (h : absorbData i ≠ []) :
    (s.ppOpen = false ∧ rejection P i s = some .seq ∧ perform P i s = reject .seq s) ∨
    (s.ppOpen = true ∧ rejection P i s = some .pplen ∧ perform P i s = reject .pplen s) ∨
    (s.ppOpen = true ∧ rejection P i s = none ∧ perform P i s = { s with ppMsg := s.ppMsg ++ absorbData i }) := by
  rw [perform_of_absorbData h, rejection_of_absorbData h]
  rcases absorbBytes_cases P (absorbData i) s with ⟨ho, hp⟩ | ⟨ho, hlen, hp⟩ | ⟨ho, hlen, hp⟩
  · exact .inl ⟨ho, by simp [ho], hp⟩
  · exact .inr (.inl ⟨ho, by simp [ho, hlen], hp⟩)
  · exact .inr (.inr ⟨ho, by simp [ho, hlen], hp⟩)

/-- What ADDn can do, with the error that rejects it (R171-R173). -/
theorem perform_add_cases (h : addData i ≠ []) :
    (rejection P i s = some .ovf ∧ perform P i s = reject .ovf s) ∨
    (rejection P i s = none ∧ perform P i s = (addData i).foldl (xorByte P) s) := by
  rw [perform_of_addData h, rejection_of_addData h]
  rcases addBytes_cases P (addData i) s with ⟨hlen, hp⟩ | ⟨hlen, hp⟩
  · exact .inl ⟨by simp [hlen], hp⟩
  · exact .inr ⟨by simp [hlen], hp⟩

/-- PP_END with no passphrase open is rejected (R146). -/
theorem ppEnd_of_closed (h : s.ppOpen = false) : ppEnd P s = reject .seq s := by
  simp [ppEnd, h]

/-- PP_END with a passphrase open starts a session on the derived seeds (R146). -/
theorem ppEnd_of_open (h : s.ppOpen = true) :
    ppEnd P s = sessionStart P (derive P s.ppMsg) true { s with ppOpen := false } := by
  simp [ppEnd, h]

theorem startsSession_iff : startsSession i s = true ↔ i = .rstDef ∨ i = .ppEnd ∧ s.ppOpen = true := by
  cases i <;> simp [startsSession]

/-- A rejected command starts no session. -/
theorem startsSession_of_rejection {e : CommandError} (h : rejection P i s = some e) : startsSession i s = false := by
  cases i with
  | rstDef => simp [rejection] at h
  | ppEnd => cases ho : s.ppOpen <;> simp_all [rejection, startsSession]
  | _ => rfl

/-- A rejected command does what `reject` does and nothing else (R252). -/
theorem perform_of_rejection {e : CommandError} (h : rejection P i s = some e) : perform P i s = reject e s := by
  by_cases habs : absorbData i = []
  · by_cases hadd : addData i = []
    · have hi : i = .ppEnd := by cases i <;> simp_all [rejection, absorbData, addData]
      subst hi
      obtain ⟨ho, rfl⟩ : s.ppOpen = false ∧ CommandError.seq = e := by simpa [rejection] using h
      exact ppEnd_of_closed ho
    · rcases perform_add_cases (P := P) (s := s) hadd with ⟨hr, hp⟩ | ⟨hr, -⟩ <;> simp_all
  · rcases perform_absorb_cases (P := P) (s := s) habs with ⟨-, hr, hp⟩ | ⟨-, hr, hp⟩ | ⟨-, hr, -⟩ <;> simp_all

/-! ### The reset state (R39) -/

@[simp] theorem getElem_seedBank (seeds : SeedSet) (k : Fin 8) : (seedBank P seeds)[k] = P.gseed seeds[k] := by
  simp [seedBank]

theorem reset_gen : State.reset.gen = seedBank referenceParams State.reset.seed := rfl

/-- STATUS is the bit `BUF_EMPTY` alone after reset. -/
theorem statusWord_reset : statusWord referenceParams State.reset = 0x00000001 := by decide

/-- Settles O14: reset seeds every generator from its drawn seed, and the other values are the fields of `State.reset`. -/
theorem resetLeavesTheSpecifiedValues : Obligations.ResetLeavesTheSpecifiedValues := by
  refine ⟨fun k => ?_, rfl, rfl, rfl, rfl, rfl, rfl, rfl, rfl, rfl, rfl, statusWord_reset⟩
  rw [reset_gen]
  exact getElem_seedBank State.reset.seed k

/-! ### STATUS (R35) -/

/-- The layout of STATUS (R35): the flag in each bit position, and 0 in the reserved ones. -/
def statusBit (P : Params G W) (s : Any.State G W) : Nat → Bool
  | 0 => bufEmpty s
  | 1 => bufFull P s
  | 2 => s.ppOpen
  | 3 => s.modePp
  | 8 => s.errIll
  | 9 => s.errSeq
  | 10 => s.errOvf
  | 11 => s.errPplen
  | _ => false

theorem statusBit_reserved {k : Nat} (h : (4 ≤ k ∧ k ≤ 7) ∨ 12 ≤ k) : statusBit P s k = false := by
  unfold statusBit
  split <;> simp_all

/-- Every bit of STATUS is the one its layout gives. -/
theorem getLsbD_statusWord (k : Nat) : (statusWord P s).getLsbD k = statusBit P s k := by
  by_cases hk : k < 12
  · simp only [statusWord, flagBit, BitVec.getLsbD_setWidth, BitVec.getLsbD_append, BitVec.getLsbD_ofBool]
    interval_cases k <;> simp [statusBit]
  · rw [statusBit_reserved (.inr (by omega)), statusWord, BitVec.getLsbD_setWidth,
      BitVec.getLsbD_of_ge _ _ (by omega), Bool.and_false]

/-- A buffer of at least three bytes' room is not empty and full at once (R35). -/
theorem not_bufEmpty_and_bufFull (hP : P.Valid) : ¬ (bufEmpty s = true ∧ bufFull P s = true) := by
  rintro ⟨he, hf⟩
  simp only [bufEmpty, bufFull, beq_iff_eq] at he hf
  have := hP.1
  omega

/-- Settles O41, by the layout of STATUS. -/
theorem statusFieldsAreComputedFromState : Obligations.StatusFieldsAreComputedFromState := by
  intro G W P s
  simp only [getLsbD_statusWord]
  exact ⟨rfl, rfl, rfl, rfl, rfl, rfl, rfl, rfl, fun _ => statusBit_reserved, not_bufEmpty_and_bufFull, rfl, rfl⟩

/-! ### The sticky error bits (R32) -/

@[simp] theorem errBit_respond (v : Word) (d : CommandError) : errBit (respond v s) d = errBit s d := rfl

@[simp] theorem errBit_sessionStart (seeds : SeedSet) (mode : Bool) (d : CommandError) :
    errBit (sessionStart P seeds mode s) d = false := errBit_clearErrBits _ d

@[simp] theorem errBit_defaultStart (d : CommandError) : errBit (defaultStart P s) d = false :=
  errBit_sessionStart (P := P) (s := s) (P.defaultSeeds s.drawCount) false d

@[simp] theorem errBit_powerOnReset (d : CommandError) : errBit (powerOnReset P s) d = false :=
  errBit_defaultStart (P := P) (s := s) d

theorem errBit_foldl_xorByte (bs : List Byte) (d : CommandError) :
    errBit (bs.foldl (xorByte P) s) d = errBit s d := by
  obtain ⟨g, out, -, h⟩ := foldl_xorByte_shape P bs s
  rw [h]
  rfl

theorem errBit_drain (n : Nat) (d : CommandError) : errBit (drain n s) d = errBit s d := by
  rw [drain_eq, errBit_respond]
  rfl

/-- A session start clears every error bit (R32, R141). -/
theorem errBit_perform_of_startsSession (h : startsSession i s = true) (d : CommandError) :
    errBit (perform P i s) d = false := by
  rcases startsSession_iff.mp h with rfl | ⟨rfl, ho⟩
  · exact errBit_defaultStart d
  · rw [perform, ppEnd_of_open ho]
    exact errBit_sessionStart _ _ d

/-- A command that is performed and starts no session keeps every error bit (R32). -/
theorem errBit_perform_of_accepted (hr : rejection P i s = none) (hs : startsSession i s = false) (d : CommandError) :
    errBit (perform P i s) d = errBit s d := by
  by_cases habs : absorbData i = []
  · by_cases hadd : addData i = []
    · cases i with
      | rstDef => simp [startsSession] at hs
      | ppEnd => simp_all [startsSession, rejection]
      | ppAbs1 | ppAbs2 | ppAbs3 => simp [absorbData] at habs
      | add1 | add2 | add3 => simp [addData] at hadd
      | drain1 | drain2 | drain3 => exact errBit_drain _ d
      | _ => rfl
    · rcases perform_add_cases (P := P) (s := s) hadd with ⟨he, -⟩ | ⟨-, hp⟩
      · simp [hr] at he
      · rw [hp, errBit_foldl_xorByte]
  · rcases perform_absorb_cases (P := P) (s := s) habs with ⟨-, he, -⟩ | ⟨-, he, -⟩ | ⟨-, -, hp⟩
    · simp [hr] at he
    · simp [hr] at he
    · rw [hp]
      rfl

/-- The error bits a decoded command leaves (R32). -/
theorem errBit_perform (d : CommandError) :
    errBit (perform P i s) d = (!startsSession i s && (errBit s d || decide (rejection P i s = some d))) := by
  cases hr : rejection P i s with
  | some e => simp [startsSession_of_rejection hr, perform_of_rejection hr, eq_comm]
  | none =>
    cases hs : startsSession i s with
    | true => simp [errBit_perform_of_startsSession hs]
    | false => simp [errBit_perform_of_accepted hr hs]

/-- An illegal word is rejected with `ERR_ILL` (R76, R250). -/
theorem performWord_of_illegal {w : Word} {why : Illegal} (h : decode w = .illegal why) :
    performWord P w s = reject .ill s := by
  simp [performWord, h]

/-- Settles O36: a rejection sets its bit, a session start and power-on reset clear all four, and nothing else writes them. -/
theorem errorBitsAreStickyUntilASessionStart : Obligations.ErrorBitsAreStickyUntilASessionStart := by
  refine ⟨fun _ _ _ _ _ => errBit_perform, fun _ _ _ _ s d _ h => ?_, fun _ _ _ _ => errBit_powerOnReset⟩
  rw [performWord_of_illegal h, errBit_reject]

/-! ### The hasher and the session (R30) -/

/-- The session state R30 speaks of: `GEN`, `SEED`, `CURSOR`, `BUF` and `MODE_PP`. -/
def sessionPart (s : Any.State G W) : GenBank G × SeedSet × Count W × List Byte × Bool :=
  (s.gen, s.seed, s.cursor, s.buf, s.modePp)

/-- The state with this hasher state, `PP_OPEN` and `PP_MSG` (R28, R29). -/
def withHasher (o : Bool) (m : List Byte) (s : Any.State G W) : Any.State G W := { s with ppOpen := o, ppMsg := m }

theorem sessionPart_eq_iff {t : Any.State G W} :
    sessionPart t = sessionPart s ↔
      t.gen = s.gen ∧ t.seed = s.seed ∧ t.cursor = s.cursor ∧ t.buf = s.buf ∧ t.modePp = s.modePp := by
  simp [sessionPart]

@[simp] theorem sessionPart_withHasher (o : Bool) (m : List Byte) : sessionPart (withHasher o m s) = sessionPart s := rfl

@[simp] theorem sessionPart_reject (e : CommandError) : sessionPart (reject e s) = sessionPart s := by
  simp [sessionPart]

/-- PP_BEGIN and PP_ABSn leave the session alone (R30). -/
theorem sessionPart_perform_of_hasher (h : i = .ppBegin ∨ absorbData i ≠ []) :
    sessionPart (perform P i s) = sessionPart s := by
  rcases h with rfl | h
  · rfl
  · rcases perform_absorb_cases (P := P) (s := s) h with ⟨-, -, hp⟩ | ⟨-, -, hp⟩ | ⟨-, -, hp⟩
    · rw [hp, sessionPart_reject]
    · rw [hp, sessionPart_reject]
    · rw [hp]
      rfl

/-- The commands whose effect depends on `PP_OPEN` or `PP_MSG` or changes them: the passphrase commands, and RD_STATUS,
whose response shows `PP_OPEN`. -/
def touchesHasher : Instr → Bool
  | .ppBegin | .ppAbs1 _ | .ppAbs2 _ _ | .ppAbs3 _ _ _ | .ppEnd | .rdStatus => true
  | .nop | .rstDef | .add1 _ | .add2 _ _ | .add3 _ _ _ | .drain1 | .drain2 | .drain3 | .flush
  | .rdSize | .rdTotalLo | .rdTotalHi | .rdSeed _ => false

theorem touchesHasher_iff :
    touchesHasher i = true ↔ (i = .ppBegin ∨ absorbData i ≠ []) ∨ i = .ppEnd ∨ i = .rdStatus := by
  cases i <;> simp [touchesHasher, absorbData]

/-- The session commands R30 speaks of do not touch the hasher. -/
theorem touchesHasher_of_session (h : i = .rstDef ∨ addData i ≠ [] ∨ isDrain i = true ∨ i = .flush) :
    touchesHasher i = false := by
  cases i <;> simp_all [touchesHasher, addData, isDrain]

theorem addBytes_withHasher (bs : List Byte) (o : Bool) (m : List Byte) :
    addBytes P bs (withHasher o m s) = withHasher o m (addBytes P bs s) := by
  have hfold : bs.foldl (xorByte P) (withHasher o m s) = withHasher o m (bs.foldl (xorByte P) s) :=
    List.foldl_hom (withHasher o m) fun _ _ => rfl
  simp only [addBytes, hfold, apply_ite (withHasher o m)]
  rfl

theorem drain_withHasher (n : Nat) (o : Bool) (m : List Byte) :
    drain n (withHasher o m s) = withHasher o m (drain n s) := by
  rw [drain_eq, drain_eq]
  rfl

/-- A command that does not touch the hasher carries any hasher state along unread and unchanged. -/
theorem perform_withHasher (h : touchesHasher i = false) (o : Bool) (m : List Byte) :
    perform P i (withHasher o m s) = withHasher o m (perform P i s) := by
  cases i with
  | ppBegin | ppAbs1 | ppAbs2 | ppAbs3 | ppEnd | rdStatus => simp [touchesHasher] at h
  | add1 | add2 | add3 => exact addBytes_withHasher _ o m
  | drain1 | drain2 | drain3 => exact drain_withHasher _ o m
  | _ => rfl

/-- A command that does not touch the hasher keeps it: `perform_withHasher` at the hasher state there is. -/
theorem hasher_perform_of_not_touches (h : touchesHasher i = false) :
    (perform P i s).ppOpen = s.ppOpen ∧ (perform P i s).ppMsg = s.ppMsg := by
  have hcarry : perform P i s = withHasher s.ppOpen s.ppMsg (perform P i s) :=
    perform_withHasher h s.ppOpen s.ppMsg
  rw [hcarry]
  exact ⟨rfl, rfl⟩

/-- What a command other than PP_END leaves in the session does not depend on the hasher (R30). -/
theorem sessionPart_perform_withHasher (h : i ≠ .ppEnd) (o : Bool) (m : List Byte) :
    sessionPart (perform P i (withHasher o m s)) = sessionPart (perform P i s) := by
  cases ht : touchesHasher i with
  | false => rw [perform_withHasher ht, sessionPart_withHasher]
  | true =>
    rcases touchesHasher_iff.mp ht with hh | rfl | rfl
    · rw [sessionPart_perform_of_hasher hh, sessionPart_perform_of_hasher hh, sessionPart_withHasher]
    · exact absurd rfl h
    · rfl

/-- Settles O38: the passphrase commands leave the session part, the session commands carry the hasher state along. -/
theorem hasherAndSessionAreIndependent : Obligations.HasherAndSessionAreIndependent := by
  intro G W P i s
  refine ⟨fun h => ?_, fun h => ?_, ppEnd_of_closed, fun h o m => ?_⟩
  · exact sessionPart_eq_iff.mp (sessionPart_perform_of_hasher h)
  · exact hasher_perform_of_not_touches (touchesHasher_of_session h)
  · exact sessionPart_eq_iff.mp (sessionPart_perform_withHasher h o m)

end Sys2Proof.Machine
end

