-- ==== Sys2Proof/Proofs/Memory.lean ====
section
/-!
What each kind of command does to the buffer, and from it that the buffer is a queue (20_memory.md R51-R54).
-/
namespace Sys2Proof.Machine

variable {G : Type} {W : Nat} {P : Params G W} {i : Instr} {s : Any.State G W}

/-- A session start discards every byte (R51, R141). -/
theorem buf_perform_of_startsSession (h : startsSession i s = true) : (perform P i s).buf = [] := by
  rcases startsSession_iff.mp h with rfl | ⟨rfl, ho⟩
  · rfl
  · rw [perform, ppEnd_of_open ho, sessionStart_buf]

/-- `Drain(n)` removes the oldest `min n len(BUF)` bytes and nothing else (R51, R53, R200). -/
theorem buf_drain (n : Nat) (s : Any.State G W) : (drain n s).buf = s.buf.drop (min n s.buf.length) := by
  rw [drain_eq, respond_buf]
  exact List.drop_eq_drop_iff.mpr (by omega)

/-- A drain command removes bytes from the head of the buffer and appends none (R51). -/
theorem buf_perform_of_drain (h : isDrain i = true) :
    ∃ k ≤ s.buf.length, (perform P i s).buf = s.buf.drop k := by
  cases i with
  | drain1 | drain2 | drain3 => exact ⟨_, Nat.min_le_right _ _, buf_drain _ s⟩
  | _ => simp [isDrain] at h

/-- An add keeps the bytes there are and appends at most its own number of them: all, or none if rejected (R51, R52). -/
theorem buf_perform_of_addData (h : addData i ≠ []) :
    ∃ out : List Byte, out.length ≤ (addData i).length ∧ (perform P i s).buf = s.buf ++ out := by
  rcases perform_add_cases (P := P) (s := s) h with ⟨-, hp⟩ | ⟨-, hp⟩
  · exact ⟨[], Nat.zero_le _, by rw [hp, reject_buf, List.append_nil]⟩
  · obtain ⟨g, out, hlen, hshape⟩ := foldl_xorByte_shape P (addData i) s
    exact ⟨out, hlen.le, by rw [hp, hshape]⟩

/-- A command that neither empties the buffer, drains nor adds leaves the buffer as it is (R51). -/
theorem buf_perform_of_other (hflush : i ≠ .flush) (hstart : startsSession i s = false)
    (hdrain : isDrain i = false) (hadd : addData i = []) : (perform P i s).buf = s.buf := by
  by_cases hhash : i = .ppBegin ∨ absorbData i ≠ []
  · obtain ⟨-, -, -, hbuf, -⟩ := sessionPart_eq_iff.mp (sessionPart_perform_of_hasher (P := P) (s := s) hhash)
    exact hbuf
  · cases i with
    | flush => exact absurd rfl hflush
    | rstDef => simp [startsSession] at hstart
    | ppEnd => rw [perform, ppEnd_of_closed hstart, reject_buf]
    | ppBegin | ppAbs1 | ppAbs2 | ppAbs3 => simp [absorbData] at hhash
    | add1 | add2 | add3 => simp [addData] at hadd
    | drain1 | drain2 | drain3 => simp [isDrain] at hdrain
    | _ => rfl

theorem addData_of_isDrain (h : isDrain i = true) : addData i = [] := by
  cases i <;> simp [isDrain, addData] at h ⊢

/-- Settles O40: FLUSH and session starts empty the buffer, a drain takes from its head, an add appends, and nothing else
touches it. -/
theorem theBufferIsAQueue : Obligations.TheBufferIsAQueue := by
  intro G W P i s
  refine ⟨?_, fun hflush hstart => ?_⟩
  · rintro (rfl | hstart)
    · rfl
    · exact buf_perform_of_startsSession hstart
  · cases hdrain : isDrain i with
    | true =>
      obtain ⟨k, hk, hbuf⟩ := buf_perform_of_drain (P := P) (s := s) hdrain
      exact ⟨k, [], hk, by rw [hbuf, List.append_nil], nofun, fun _ => rfl, Nat.zero_le _⟩
    | false =>
      by_cases hadd : addData i = []
      · exact ⟨0, [], Nat.zero_le _, by simp [buf_perform_of_other hflush hstart hdrain hadd], fun _ => rfl,
          fun _ => rfl, Nat.zero_le _⟩
      · obtain ⟨out, hlen, hbuf⟩ := buf_perform_of_addData (P := P) (s := s) hadd
        exact ⟨0, out, Nat.zero_le _, hbuf, fun _ => rfl, fun h => absurd h hadd, hlen⟩

end Sys2Proof.Machine
end

