-- ==== Sys2Proof/Proofs/Encoding.lean ====
section
/-!
The decoder against the opcode map (30_encoding.md R71-R77): what a row's opcode and the reserved bits of its format decide
about a word, and from it that the match and mask columns decide the command.
-/
namespace Sys2Proof.Machine

variable {w : Word} {i : Instr} {r r' : OpcodeRow} {f : Format} {opc b0 b1 b2 : Byte}

/-! ### What an opcode selects, and a legal word as the word of its command -/

@[simp] theorem opcode_and (v w : Word) : opcode (v &&& w) = opcode v &&& opcode w := BitVec.extractLsb'_and

/-- The opcodes of RD_SEED: the mask of its row leaves out the index bits (R72, R73). -/
theorem and_F8_eq_38_iff (opc : Byte) : opc &&& 0xF8#8 = 0x38#8 ↔ 0x38 ≤ opc.toNat ∧ opc.toNat ≤ 0x3F := by
  revert opc
  decide

/-- An opcode of RD_SEED is its first opcode plus the index it carries (R72). -/
theorem opcode_rdSeed_seedIndex (h : 0x38 ≤ opc.toNat ∧ opc.toNat ≤ 0x3F) :
    (Instr.rdSeed (seedIndex opc)).opcode = opc := by
  apply BitVec.eq_of_toNat_eq
  have hindex : (seedIndex opc).val = opc.toNat % 8 := rfl
  rw [Instr.opcode, BitVec.toNat_add, BitVec.toNat_ofNat, hindex, show (0x38 : Byte).toNat = 0x38 from rfl]
  omega

/-- An opcode selects a command of that opcode (R73, R76). -/
theorem opcode_of_ofOpcode (h : ofOpcode opc b0 b1 b2 = some (f, i)) : i.opcode = opc := by
  unfold ofOpcode at h
  split at h
  case h_19 =>
    split at h
    next hrange =>
      cases h
      exact opcode_rdSeed_seedIndex hrange
    · cases h
  all_goals
    next hopc =>
    cases h
    exact BitVec.eq_of_toNat_eq hopc.symm

/-- The selected command's word has the lanes its format carries and no other (R71). -/
theorem encode_of_ofOpcode (h : ofOpcode opc b0 b1 b2 = some (f, i)) (hc : reservedClear f (ofLanes opc b2 b1 b0) = true) :
    encode i = ofLanes opc b2 b1 b0 := by
  rw [reservedClear_ofLanes] at hc
  rw [← opcode_of_ofOpcode h]
  unfold ofOpcode at h
  split at h
  case h_19 =>
    split at h
    · cases h
      simp [encode, hc]
    · cases h
  all_goals
    cases h
    simp [encode, hc]

/-- Under a listed opcode the reserved bits decide between the command and an illegal word (R76). -/
theorem decode_of_ofOpcode (h : ofOpcode (opcode w) (lane w 0) (lane w 1) (lane w 2) = some (f, i)) :
    decode w = if reservedClear f w then .command i else .illegal .reservedBitSet := by
  simp [decode, h]

/-- A legal word has a listed opcode and no reserved bit set (R76). -/
theorem ofOpcode_of_decode (h : decode w = .command i) :
    ∃ f, ofOpcode (opcode w) (lane w 0) (lane w 1) (lane w 2) = some (f, i) ∧ reservedClear f w = true := by
  unfold decode at h
  split at h
  · cases h
  next f j ho =>
    split at h
    next hc => exact ⟨f, by rw [ho, Decoded.command.inj h], hc⟩
    · cases h

/-- A legal word is the word of its command: no bit is ignored (R77). -/
theorem encode_of_decode (h : decode w = .command i) : encode i = w := by
  obtain ⟨f, ho, hc⟩ := ofOpcode_of_decode h
  rw [← ofLanes_lane w] at hc ⊢
  exact encode_of_ofOpcode ho hc

/-! ### The reserved bits of a format -/

/-- The reserved bits of a format, as a mask (R77). -/
def reservedMask : Format → Word
  | .z => 0x00FFFFFF
  | .b1 => 0x00FFFF00
  | .b2 => 0x00FF0000
  | .b3 => 0

/-- A field of a word is zero exactly when the word is zero under the field's mask. -/
theorem extractLsb'_eq_zero_iff (w : Word) (start len : Nat) :
    w.extractLsb' start len = 0#len ↔ w &&& (BitVec.allOnes len).setWidth 32 <<< start = 0#32 := by
  simp only [eq_zero_iff_bits, BitVec.getLsbD_extractLsb', BitVec.getLsbD_and, BitVec.getLsbD_shiftLeft,
    BitVec.getLsbD_setWidth, BitVec.getLsbD_allOnes]
  constructor
  · intro h k hk
    by_cases hfield : start ≤ k ∧ k - start < len
    · have hbit := h (k - start) hfield.2
      simp_all
    · grind
  · intro h k hk
    by_cases hword : start + k < 32
    · have hbit := h (start + k) hword
      grind
    · simp [BitVec.getLsbD_of_ge w (start + k) (by omega)]

/-- The decoder's test of the reserved bits is the test under their mask (R77). -/
theorem reservedClear_iff : reservedClear f w = true ↔ w &&& reservedMask f = 0 := by
  cases f with
  | z => exact beq_iff_eq.trans (extractLsb'_eq_zero_iff w 0 24)
  | b1 => exact beq_iff_eq.trans (extractLsb'_eq_zero_iff w 8 16)
  | b2 => exact beq_iff_eq.trans (extractLsb'_eq_zero_iff w 16 8)
  | b3 => simp [reservedClear, reservedMask]

/-! ### The rows of the opcode map -/

/-- The columns of a row fit together: its match is an opcode alone, and its mask holds the reserved bits of its format. -/
theorem columns_of_mem (hr : r ∈ opcodeTable) :
    r.pattern &&& 0xFF000000 = r.pattern ∧ r.pattern &&& reservedMask r.format = 0 ∧
      r.mask &&& reservedMask r.format = reservedMask r.format := by
  revert r
  decide

/-- Every row fixes all eight bits of its opcode, but for that of RD_SEED (R73). -/
theorem opcode_mask_cases (hr : r ∈ opcodeTable) :
    opcode r.mask = BitVec.allOnes 8 ∨ r = ⟨.RD_SEED, .z, 0x38000000, 0xF8FFFFFF, true⟩ := by
  revert r
  decide

/-- No two rows have the same mnemonic. -/
theorem row_eq_of_mnemonic_eq (hr : r ∈ opcodeTable) (hr' : r' ∈ opcodeTable) (h : r.mnemonic = r'.mnemonic) : r = r' :=
  List.inj_on_of_nodup_map (f := OpcodeRow.mnemonic) (by decide) hr hr' h

/-- The opcode of a row's match selects the row's format and a command of its mnemonic (R73, R76). -/
theorem ofOpcode_pattern (hr : r ∈ opcodeTable) :
    ∃ i, ofOpcode (opcode r.pattern) b0 b1 b2 = some (r.format, i) ∧ i.mnemonic = r.mnemonic := by
  fin_cases hr <;> exact ⟨_, rfl, rfl⟩

/-- So does every opcode that fits the row's mask. -/
theorem ofOpcode_of_mem (hr : r ∈ opcodeTable) (hopc : opc &&& opcode r.mask = opcode r.pattern) :
    ∃ i, ofOpcode opc b0 b1 b2 = some (r.format, i) ∧ i.mnemonic = r.mnemonic := by
  rcases opcode_mask_cases hr with hmask | rfl
  · have hfull : opc = opcode r.pattern := by rwa [hmask, BitVec.and_allOnes] at hopc
    rw [hfull]
    exact ofOpcode_pattern hr
  · have hrange : 0x38 ≤ opc.toNat ∧ opc.toNat ≤ 0x3F := (and_F8_eq_38_iff opc).mp hopc
    refine ⟨.rdSeed (seedIndex opc), ?_, rfl⟩
    unfold ofOpcode
    split
    case h_19 => exact if_pos hrange
    all_goals omega

/-- Every command has a row of its mnemonic and its 'responds' column that its word fits (R73). -/
theorem row_of_instr (i : Instr) : Laws.OpcodeRow.Statement i := by
  cases i
  exacts [Laws.OpcodeRow.nop, Laws.OpcodeRow.rstDef, Laws.OpcodeRow.ppBegin, Laws.OpcodeRow.ppAbs1 _,
    Laws.OpcodeRow.ppAbs2 _ _, Laws.OpcodeRow.ppAbs3 _ _ _, Laws.OpcodeRow.ppEnd, Laws.OpcodeRow.add1 _,
    Laws.OpcodeRow.add2 _ _, Laws.OpcodeRow.add3 _ _ _, Laws.OpcodeRow.drain1, Laws.OpcodeRow.drain2,
    Laws.OpcodeRow.drain3, Laws.OpcodeRow.flush, Laws.OpcodeRow.rdStatus, Laws.OpcodeRow.rdSize,
    Laws.OpcodeRow.rdTotalLo, Laws.OpcodeRow.rdTotalHi, Laws.OpcodeRow.rdSeed _]

/-- A row that bears a command's mnemonic has its 'responds' column, and the command's word fits it (R73). -/
theorem row_fits_encode (hr : r ∈ opcodeTable) (h : i.mnemonic = r.mnemonic) :
    i.responds = r.responds ∧ encode i &&& r.mask = r.pattern := by
  obtain ⟨-, r', hr', hmn, hresp, hfits⟩ := row_of_instr i
  obtain rfl := row_eq_of_mnemonic_eq hr' hr (hmn.trans h)
  exact ⟨hresp.symm, beq_iff_eq.mp hfits⟩

/-! ### Words against rows -/

/-- Under a row's opcode the reserved bits of its format decide between a command of the row and an illegal word (R77). -/
theorem decode_under_row (hr : r ∈ opcodeTable) (hw : w &&& (r.mask &&& 0xFF000000) = r.pattern) :
    if w &&& reservedMask r.format = 0
    then ∃ i, decode w = .command i ∧ i.mnemonic = r.mnemonic
    else decode w = .illegal .reservedBitSet := by
  have hopc : opcode w &&& opcode r.mask = opcode r.pattern := by
    rw [← hw, opcode_and, opcode_and, show opcode 0xFF000000 = BitVec.allOnes 8 from rfl, BitVec.and_allOnes]
  obtain ⟨i, ho, hmn⟩ := ofOpcode_of_mem hr hopc
  have hdec := decode_of_ofOpcode ho
  split
  next hres => exact ⟨i, by rw [hdec, if_pos (reservedClear_iff.mpr hres)], hmn⟩
  next hres => rw [hdec, if_neg (mt reservedClear_iff.mp hres)]

/-- A word that fits a row is under its opcode and has no reserved bit set (R73, R77). -/
theorem fits_row (hr : r ∈ opcodeTable) (hw : w &&& r.mask = r.pattern) :
    w &&& (r.mask &&& 0xFF000000) = r.pattern ∧ w &&& reservedMask r.format = 0 := by
  obtain ⟨hopc, hres, hmask⟩ := columns_of_mem hr
  constructor
  · rw [← BitVec.and_assoc, hw, hopc]
  · rw [← hmask, ← BitVec.and_assoc, hw, hres]

/-- A word fits a row exactly when it decodes to a command of the row's mnemonic (R73). -/
theorem fits_row_iff (hr : r ∈ opcodeTable) :
    w &&& r.mask = r.pattern ↔ ∃ i, decode w = .command i ∧ i.mnemonic = r.mnemonic := by
  constructor
  · intro hw
    obtain ⟨hopc, hres⟩ := fits_row hr hw
    simpa only [if_pos hres] using decode_under_row hr hopc
  · rintro ⟨i, hdec, hmn⟩
    rw [← encode_of_decode hdec]
    exact (row_fits_encode hr hmn).2

/-- A legal word fits exactly one row (R73). -/
theorem existsUnique_row_of_decode (h : decode w = .command i) : ∃! r, r ∈ opcodeTable ∧ w &&& r.mask = r.pattern := by
  obtain ⟨-, r, hr, hmn, -, -⟩ := row_of_instr i
  refine ⟨r, ⟨hr, (fits_row_iff hr).mpr ⟨i, h, hmn.symm⟩⟩, ?_⟩
  rintro r' ⟨hr', hw⟩
  obtain ⟨j, hj, hmn'⟩ := (fits_row_iff hr').mp hw
  obtain rfl : i = j := Decoded.command.inj (h.symm.trans hj)
  exact row_eq_of_mnemonic_eq hr' hr (hmn'.symm.trans hmn.symm)

/-- Settles O4: fitting a row is decoding to its mnemonic, and each mnemonic has one row. -/
theorem aWordIsTheCommandWhoseRowItFits : Obligations.AWordIsTheCommandWhoseRowItFits :=
  ⟨fun _ hr _ => fits_row_iff hr, fun _ _ => existsUnique_row_of_decode, fun _ hr _ h => (row_fits_encode hr h).1⟩

/-- Settles O5: the row's opcode selects its format, whose reserved bits decide. -/
theorem reservedBitsMakeAWordIllegal : Obligations.ReservedBitsMakeAWordIllegal := by
  refine ⟨fun r hr w hw => ?_, by decide, by decide⟩
  have h := decode_under_row hr hw
  cases hf : r.format <;> simpa [hf, reservedMask] using h

end Sys2Proof.Machine
end

