-- ==== Sys2Proof/Proofs/SeedDerivation.lean ====
section
/-!
Seed derivation (40_seed_derivation.md): the incremental hasher against SHA-256 (R107, R111, R123), the digest windows
(R113), the published check values (R112) and the commands that fill the passphrase (R118-R122).
-/
namespace Sys2Proof.Machine

/-! ### Blocks (R111) and padding (R107) -/

/-- Compressing `a + n` blocks is compressing the first `a`, then `n` of what stands behind them (R111). -/
theorem shaBlocks_add (a n : Nat) (bytes : List Byte) (h : HashWords) :
    shaBlocks (a + n) bytes h = shaBlocks n (bytes.drop (64 * a)) (shaBlocks a bytes h) := by
  induction a generalizing bytes h with
  | zero => simp [shaBlocks]
  | succ a ih =>
    rw [show a + 1 + n = (a + n) + 1 by omega, shaBlocks, shaBlocks, ih, List.drop_drop,
      show 64 + 64 * a = 64 * (a + 1) by omega]

/-- The last of `n + 1` blocks is compressed after the others (R111). -/
theorem shaBlocks_succ_last (n : Nat) (bytes : List Byte) (h : HashWords) :
    shaBlocks (n + 1) bytes h = shaCompress (shaBlocks n bytes h) (shaWords ((bytes.drop (64 * n)).take 64)) := by
  rw [shaBlocks_add]
  rfl

/-- Bytes behind the blocks that are compressed do not matter (R111). -/
theorem shaBlocks_append {n : Nat} {bytes : List Byte} (rest : List Byte) (h : HashWords) (hn : 64 * n ≤ bytes.length) :
    shaBlocks n (bytes ++ rest) h = shaBlocks n bytes h := by
  induction n generalizing bytes h with
  | zero => rfl
  | succ n ih =>
    have hdrop : 64 * n ≤ (bytes.drop 64).length := by rw [List.length_drop]; omega
    rw [shaBlocks, shaBlocks, List.take_append_of_le_length (by omega), List.drop_append_of_le_length (by omega),
      ih _ hdrop]

/-- The full blocks of a message are compressed alike whatever follows it. -/
theorem shaBlocks_fullBlocks_append (msg rest : List Byte) (h : HashWords) :
    shaBlocks (msg.length / 64) (msg ++ rest) h = shaBlocks (msg.length / 64) msg h :=
  shaBlocks_append rest h (Nat.mul_div_le _ _)

/-- Behind the full blocks of a message stands its partial block, and then what follows it. -/
theorem drop_fullBlocks_append (msg rest : List Byte) :
    (msg ++ rest).drop (64 * (msg.length / 64)) = msg.drop (64 * (msg.length / 64)) ++ rest :=
  List.drop_append_of_le_length (Nat.mul_div_le _ _)

theorem length_shaTail (len : Nat) : (shaTail len).length = shaZeros len + 9 := by
  simp [shaTail, shaLengthBytes]

/-- The tail fills the message up to whole blocks (R107). -/
theorem add_length_shaTail (len : Nat) : len + (shaTail len).length = 64 * shaBlockCount len := by
  rw [length_shaTail, shaZeros, shaBlockCount]
  omega

/-! ### The incremental hasher (R31, R123) -/

/-- The registers R31 gives for a passphrase: its full blocks are compressed, `BLK` holds the bytes behind them and `PP_LEN`
counts all of them. -/
def hashRegsOf (msg : List Byte) : HashRegs :=
  ⟨shaBlocks (msg.length / 64) msg shaH0, msg.drop (64 * (msg.length / 64)), BitVec.ofNat 61 msg.length⟩

/-- Absorbing a byte goes from the registers of a passphrase to those of the passphrase with the byte appended. -/
theorem hashAbsorb_hashRegsOf (msg : List Byte) (b : Byte) :
    hashAbsorb (hashRegsOf msg) b = hashRegsOf (msg ++ [b]) := by
  have hcount : BitVec.ofNat 61 msg.length + 1 = BitVec.ofNat 61 (msg ++ [b]).length := by
    rw [List.length_append, BitVec.ofNat_add]
    rfl
  simp only [hashAbsorb, hashRegsOf, ← drop_fullBlocks_append, hcount, ← shaBlocks_fullBlocks_append msg [b]]
  generalize hm : msg ++ [b] = m
  have hlen : m.length = msg.length + 1 := by simp [← hm]
  split
  next hfull =>
    rw [List.length_drop] at hfull
    have hdiv : m.length / 64 = msg.length / 64 + 1 := by omega
    have hempty : m.drop (64 * (msg.length / 64 + 1)) = [] := List.drop_of_length_le (by omega)
    rw [hdiv, hempty, shaBlocks_succ_last, List.take_of_length_le (by rw [List.length_drop, hfull])]
  next hpart =>
    rw [List.length_drop] at hpart
    have hdiv : m.length / 64 = msg.length / 64 := by omega
    rw [hdiv]

/-- After PP_BEGIN and the absorbed bytes the registers are those of the passphrase, however it was split (R123). -/
theorem foldl_hashAbsorb (msg : List Byte) : msg.foldl hashAbsorb hashBegin = hashRegsOf msg := by
  induction msg using List.reverseRecOn with
  | nil => rfl
  | append_singleton msg b ih => rw [List.foldl_append, ih, List.foldl_cons, List.foldl_nil, hashAbsorb_hashRegsOf]

/-- Finishing pads `BLK` to the blocks of the padded message that are still to be compressed (R123). -/
theorem hashFinish_hashRegsOf (msg : List Byte) (hlen : msg.length ≤ 2 ^ 61 - 1) :
    hashFinish (hashRegsOf msg) = sha256 msg := by
  have hcount : (BitVec.ofNat 61 msg.length).toNat = msg.length := by
    rw [BitVec.toNat_ofNat, Nat.mod_eq_of_lt (by omega)]
  have hblocks :
      msg.length / 64 + ((shaPad msg).drop (64 * (msg.length / 64))).length / 64 = shaBlockCount msg.length := by
    have htail := add_length_shaTail msg.length
    rw [List.length_drop, shaPad, List.length_append]
    omega
  simp only [hashFinish, hashRegsOf, hcount, ← drop_fullBlocks_append,
    ← shaBlocks_fullBlocks_append msg (shaTail msg.length), ← shaBlocks_add]
  rw [← shaPad, hblocks, sha256, shaFinal]

/-- Settles O46: absorbing keeps the registers of R31, and finishing them is the padding of R107. -/
theorem theIncrementalHasherEqualsSha256 : Obligations.TheIncrementalHasherEqualsSha256 := by
  intro msg hlen
  rw [foldl_hashAbsorb, hashFinish_hashRegsOf msg hlen]

/-! ### Digest bytes and windows (R111-R113) -/

/-- Byte `k` of a digest is byte `k mod 4`, most significant first, of word `k div 4` (R111). -/
theorem getElem_sha256 (msg : List Byte) {k : Nat} (hk : k < 32) :
    (sha256 msg)[k] = lane (shaFinal msg)[k / 4] (3 - k % 4) := by
  simp [sha256, shaDigest]

/-- Settles O44: the check values by evaluation, the digest's byte order from its definition. -/
theorem sha256MeetsItsCheckValues : Obligations.Sha256MeetsItsCheckValues :=
  ⟨by decide +kernel, by decide +kernel, fun msg k => getElem_sha256 msg k.isLt⟩

theorem toNat_append_byte {n : Nat} (v : BitVec n) (l : Byte) : (v ++ l).toNat = 2 ^ 8 * v.toNat + l.toNat := by
  rw [BitVec.toNat_append, ← Nat.shiftLeft_add_eq_or_of_lt l.isLt, Nat.shiftLeft_eq, Nat.mul_comm]

theorem toNat_ofLanes (l3 l2 l1 l0 : Byte) :
    (ofLanes l3 l2 l1 l0).toNat = 2 ^ 24 * l3.toNat + 2 ^ 16 * l2.toNat + 2 ^ 8 * l1.toNat + l0.toNat := by
  rw [ofLanes, toNat_append_byte, toNat_append_byte, toNat_append_byte]
  omega

@[simp] theorem getElem_slice (o : SeedOrder) (d : Digest) (i : Fin 8) : (slice o d)[i] = seedWindow o d i := by
  simp [slice]

/-- Every digest byte stands in a lane of its window, the same lane for all digests (R113). -/
theorem exists_lane_seedWindow (o : SeedOrder) (i : Fin 8) {j : Nat} (hj : j < 4) :
    ∃ l, ∀ d : Digest, lane (seedWindow o d i) l = d[4 * i.val + j] := by
  cases o with
  | littleEndian => exact ⟨j, fun d => by interval_cases j <;> simp [seedWindow]⟩
  | bigEndian => exact ⟨3 - j, fun d => by interval_cases j <;> simp [seedWindow]⟩

/-- A digest can be read back from its slices (R103). -/
theorem slice_injective (o : SeedOrder) : Function.Injective (slice o) := by
  intro d e hslice
  refine Vector.ext fun k hk => ?_
  obtain ⟨l, hl⟩ := exists_lane_seedWindow o ⟨k / 4, by omega⟩ (j := k % 4) (by omega)
  have hwindow : seedWindow o d ⟨k / 4, by omega⟩ = seedWindow o e ⟨k / 4, by omega⟩ := by
    rw [← getElem_slice, hslice, getElem_slice]
  have hbyte := hl d
  rw [hwindow, hl e] at hbyte
  simpa only [Nat.div_add_mod] using hbyte.symm

/-- Byte `j` of window `i` of a SHA-256 digest is lane `3 - j` of word `i` (R111). -/
theorem getElem_sha256_window (msg : List Byte) (i : Fin 8) {j : Nat} (hj : j < 4) :
    (sha256 msg)[4 * i.val + j] = lane (shaFinal msg)[i] (3 - j) := by
  rw [getElem_sha256]
  have hdiv : (4 * i.val + j) / 4 = i.val := by omega
  have hmod : (4 * i.val + j) % 4 = j := by omega
  simp only [hdiv, hmod]
  rfl

/-- Settles O47: a seed is the number its four lanes write, and its lanes are the digest bytes. -/
theorem seedsAreTheDigestWindows : Obligations.SeedsAreTheDigestWindows := by
  refine ⟨fun d i => ?_, fun msg i => ?_, fun o d e hslice => slice_injective o hslice⟩
  · simp only [getElem_slice, seedWindow, toNat_ofLanes, and_true]
    ring
  · have h0 := getElem_sha256_window msg i (j := 0) (by omega)
    have h1 := getElem_sha256_window msg i (j := 1) (by omega)
    have h2 := getElem_sha256_window msg i (j := 2) (by omega)
    have h3 := getElem_sha256_window msg i (j := 3) (by omega)
    simp only [getElem_slice, seedWindow, Nat.add_zero] at h0 ⊢
    rw [h0, h1, h2, h3]
    exact ⟨rfl, ofLanes_lane _⟩

/-! ### The passphrase commands (R118-R122) -/

/-- Settles O20: the effect is R118's own, and bit 2 of STATUS shows `PP_OPEN` (R35). -/
theorem ppBeginOpensAnEmptyPassphrase : Obligations.PpBeginOpensAnEmptyPassphrase :=
  ⟨by decide, fun _ => ⟨rfl, getLsbD_statusWord 2⟩⟩

/-- A word put together from a listed opcode and bytes, the reserved ones 0, is the command the opcode selects (R76). -/
theorem decode_ofLanes {f : Format} {i : Instr} {opc b2 b1 b0 : Byte} (hopc : ofOpcode opc b0 b1 b2 = some (f, i))
    (hclear : reservedClear f (ofLanes opc b2 b1 b0) = true) : decode (ofLanes opc b2 b1 b0) = .command i := by
  rw [decode_of_ofOpcode (f := f) (i := i) (by simpa using hopc), if_pos hclear]

/-- What PP_ABSn does in the reference configuration: the sequence check, the length check, then the append
(R120-R122, R251). -/
theorem exec_of_absorbData {i : Instr} (hi : absorbData i ≠ []) (s : State) :
    exec i s = .next
      (if s.ppOpen = false then { s with errSeq := true }
       else if s.ppMsg.length + (absorbData i).length > 2 ^ 61 - 1 then { s with errPplen := true }
       else { s with ppMsg := s.ppMsg ++ absorbData i }) := by
  rw [exec_eq_perform, perform_of_absorbData hi, absorbBytes, foldl_ppAppend]
  rfl

/-- Settles O21: format B1 and the shared absorb. -/
theorem ppAbs1AppendsOneByte : Obligations.PpAbs1AppendsOneByte := fun b0 s =>
  ⟨decode_ofLanes (f := .b1) rfl ((reservedClear_ofLanes ..).mpr ⟨rfl, rfl⟩),
    exec_of_absorbData (i := .ppAbs1 b0) (List.cons_ne_nil _ _) s⟩

/-- Settles O22: format B2 and the shared absorb. -/
theorem ppAbs2AppendsTwoBytesOrNone : Obligations.PpAbs2AppendsTwoBytesOrNone := fun b0 b1 s =>
  ⟨decode_ofLanes (f := .b2) rfl ((reservedClear_ofLanes ..).mpr rfl),
    exec_of_absorbData (i := .ppAbs2 b0 b1) (List.cons_ne_nil _ _) s⟩

/-- Settles O23: format B3, which reserves no bit, and the shared absorb. -/
theorem ppAbs3AppendsThreeBytesOrNone : Obligations.PpAbs3AppendsThreeBytesOrNone := fun b0 b1 b2 s =>
  ⟨decode_ofLanes (f := .b3) rfl ((reservedClear_ofLanes ..).mpr trivial),
    exec_of_absorbData (i := .ppAbs3 b0 b1 b2) (List.cons_ne_nil _ _) s⟩

end Sys2Proof.Machine
end

