-- ==== Sys2Proof/Proofs/Session.lean ====
section
/-!
PP_END as a session start (41_session_reset.md R141, R146), and the determinism of a session (R147, R148): the commands of
R148 act on `sessionView` alone, so states with equal views stay so and answer alike.
-/
namespace Sys2Proof.Machine

variable {G : Type} {W : Nat} {P : Params G W} {i : Instr} {s : Any.State G W}

/-! ### PP_END (R146) -/

/-- STATUS right after a session start with no passphrase open: `BUF_EMPTY` and `MODE_PP` at most (R35, R141). -/
theorem statusWord_sessionStart (hdepth : P.bufDepth ≠ 0) (hopen : s.ppOpen = false) (seeds : SeedSet) (mode : Bool) :
    statusWord P (sessionStart P seeds mode s) = if mode then 0x00000009 else 0x00000001 := by
  have hfull : bufFull P (sessionStart P seeds mode s) = false := by simpa [bufFull] using hdepth.symm
  cases mode <;> simp [statusWord, hfull, hopen, bufEmpty, flagBit]

/-- Settles O24: an open passphrase starts the session of its derived seeds, and a closed one is the rejection. -/
theorem ppEndStartsThePassphraseSession : Obligations.PpEndStartsThePassphraseSession := by
  refine ⟨by decide, fun s hopen => ⟨ppEnd referenceParams s, rfl, ?_, ?_⟩, fun s hclosed => ?_⟩
  · rw [ppEnd_of_open hopen]
    rfl
  · rw [ppEnd_of_open hopen]
    exact statusWord_sessionStart (by decide) rfl _ true
  · rw [exec_eq_perform, perform, ppEnd_of_closed hclosed]
    rfl

/-! ### What the host can see of a session (R147) -/

/-- The state with all that a session's commands neither read nor answer put to a fixed value: `PP_MSG`, the word of a
response that is not pending (S2), and the model's own two fields. -/
def sessionView (s : Any.State G W) : Any.State G W :=
  { s with ppMsg := [], rspWord := if s.rspPending then s.rspWord else 0, drawCount := 0, host := [] }

/-- Equal views are the same session. -/
theorem sameSession_of_sessionView_eq {t : Any.State G W} (h : sessionView s = sessionView t) : SameSession s t := by
  simp only [sessionView, Any.State.mk.injEq] at h
  simp [SameSession, h]

theorem sessionView_reject (e : CommandError) : sessionView (reject e s) = reject e (sessionView s) := by
  cases e <;> rfl

theorem sessionView_foldl_xorByte (bs : List Byte) :
    sessionView (bs.foldl (xorByte P) s) = bs.foldl (xorByte P) (sessionView s) :=
  (List.foldl_hom sessionView fun _ _ => rfl).symm

theorem sessionView_addBytes (bs : List Byte) : sessionView (addBytes P bs s) = addBytes P bs (sessionView s) := by
  simp only [addBytes, apply_ite sessionView, sessionView_reject, sessionView_foldl_xorByte]
  rfl

theorem sessionView_drain (n : Nat) : sessionView (drain n s) = drain n (sessionView s) := by
  rw [drain_eq, drain_eq]
  rfl

/-- The commands of R148 act on the view alone. -/
theorem sessionView_perform (h : usesSessionOnly i = true) :
    sessionView (perform P i s) = perform P i (sessionView s) := by
  cases i with
  | nop | rstDef | ppBegin | ppAbs1 | ppAbs2 | ppAbs3 | ppEnd => simp [usesSessionOnly] at h
  | add1 | add2 | add3 => exact sessionView_addBytes _
  | drain1 | drain2 | drain3 => exact sessionView_drain _
  | flush | rdStatus | rdSize | rdTotalLo | rdTotalHi | rdSeed => rfl

/-! ### States with equal views (R148) -/

/-- The host takes the same response from the view as from the state, and leaves the same view. -/
theorem takeResponse_sessionView :
    sessionView (takeResponse (sessionView s)).1 = sessionView (takeResponse s).1 ∧
    (takeResponse (sessionView s)).2 = (takeResponse s).2 := by
  cases hp : s.rspPending <;> simp [takeResponse, sessionView, consumeResponse, hp]

/-- From equal views a transaction of R148's commands leaves equal views and answers alike. -/
theorem transact_of_sessionView_eq {t : Any.State G W} {w : Word} (hview : sessionView s = sessionView t)
    (hw : ∃ i, decode w = .command i ∧ usesSessionOnly i = true) :
    sessionView (transact P w s).1 = sessionView (transact P w t).1 ∧ (transact P w s).2 = (transact P w t).2 := by
  obtain ⟨i, hdec, hi⟩ := hw
  have hperform : sessionView (perform P i s) = sessionView (perform P i t) := by
    rw [sessionView_perform hi, hview, sessionView_perform hi]
  obtain ⟨hs, hsword⟩ := takeResponse_sessionView (s := perform P i s)
  obtain ⟨ht, htword⟩ := takeResponse_sessionView (s := perform P i t)
  simp only [transact, performWord, hdec]
  exact ⟨by rw [← hs, hperform, ht], by rw [← hsword, hperform, htword]⟩

/-- From equal views a run of R148's commands leaves equal views and gives the same responses. -/
theorem run_of_sessionView_eq {t : Any.State G W} {ws : List Word} (hview : sessionView s = sessionView t)
    (hws : ∀ w ∈ ws, ∃ i, decode w = .command i ∧ usesSessionOnly i = true) :
    sessionView (run P ws s).final = sessionView (run P ws t).final ∧
    (run P ws s).responses = (run P ws t).responses := by
  induction ws generalizing s t with
  | nil => exact ⟨hview, rfl⟩
  | cons w ws ih =>
    obtain ⟨hw, hrest⟩ := List.forall_mem_cons.mp hws
    obtain ⟨hnext, hword⟩ := transact_of_sessionView_eq (P := P) hview hw
    obtain ⟨hfinal, hresponses⟩ := ih hnext hrest
    exact ⟨hfinal, congrArg₂ List.cons hword hresponses⟩

/-- PP_ENDs on equal passphrases leave equal views, whatever stood in the states before (R147). -/
theorem sessionView_ppEnd_eq {u v : Any.State G W} (hu : u.ppOpen = true) (hv : v.ppOpen = true)
    (hmsg : u.ppMsg = v.ppMsg) (hup : u.rspPending = false) (hvp : v.rspPending = false) :
    sessionView (ppEnd P u) = sessionView (ppEnd P v) := by
  simp [ppEnd_of_open hu, ppEnd_of_open hv, sessionView, hmsg, hup, hvp]

/-- Settles O56: the two PP_ENDs leave equal views, and so do the runs from there, which answer alike. -/
theorem sessionsOnOnePassphraseAreEqual : Obligations.SessionsOnOnePassphraseAreEqual := by
  intro G W P u v ws hu hv hmsg hup hvp hws
  have hview : sessionView (perform P .ppEnd u) = sessionView (perform P .ppEnd v) :=
    sessionView_ppEnd_eq hu hv hmsg hup hvp
  obtain ⟨hfinal, hresponses⟩ := run_of_sessionView_eq (P := P) hview hws
  exact ⟨sameSession_of_sessionView_eq hview, hresponses, sameSession_of_sessionView_eq hfinal⟩

end Sys2Proof.Machine
end

