-- ==== Sys2Proof/Proofs/KeystreamAdd.lean ====
section
/-!
The reference generator (42_keystream_add.md R162-R165), the add commands (R171-R173), and the keystream by position: a
word of a session appends its input combined with `KS` (R176), and so a session without FLUSH drains its whole input
combined with `KS` (R177), which a second session on the same seeds undoes (R178).
-/
namespace Sys2Proof.Machine

variable {G : Type} {W : Nat} {P : Params G W} {i : Instr} {w : Word} {s t : Any.State G W} {p : Nat}

/-! ### The reference generator (R162-R165) -/

/-- A seeding is in 1..2^31 - 2 (R162). -/
theorem lcgSeed_mem (w : Word) : 1 ≤ (lcgSeed w).toNat ∧ (lcgSeed w).toNat ≤ 2147483646 := by
  have hmod : w.toNat % lcgModulus < 2147483647 := Nat.mod_lt _ (by decide)
  by_cases h : w.toNat % lcgModulus = 0
  · simp [lcgSeed, h]
  · simp only [lcgSeed, h, if_false, BitVec.toNat_ofNat]
    omega

/-- The step in numbers: the 31 bits hold every residue (R163). -/
theorem toNat_lcgStep (x : LcgState) : (lcgStep x).toNat = 16807 * x.toNat % 2147483647 := by
  simp only [lcgStep, lcgModulus, BitVec.toNat_ofNat]
  omega

/-- The multiplier has no factor in common with the modulus, so a step never reaches 0 (R163). -/
theorem lcgStep_mem {x : LcgState} (hlo : 1 ≤ x.toNat) (hhi : x.toNat ≤ 2147483646) :
    1 ≤ (lcgStep x).toNat ∧ (lcgStep x).toNat ≤ 2147483646 := by
  have hne : 16807 * x.toNat % 2147483647 ≠ 0 := by
    intro h
    have hcop : Nat.Coprime 2147483647 16807 := by decide
    have hle := Nat.le_of_dvd hlo (hcop.dvd_of_dvd_mul_left (Nat.dvd_of_mod_eq_zero h))
    omega
  rw [toNat_lcgStep]
  omega

/-- A state of the range seeds itself (R143, R162). -/
theorem lcgSeed_toNat {x : LcgState} (hlo : 1 ≤ x.toNat) (hhi : x.toNat ≤ 2147483646) :
    lcgSeed (BitVec.ofNat 32 x.toNat) = x := by
  have hmod : (BitVec.ofNat 32 x.toNat).toNat % lcgModulus = x.toNat := by
    simp only [BitVec.toNat_ofNat, lcgModulus]
    omega
  have hne : x.toNat ≠ 0 := by omega
  rw [lcgSeed, hmod]
  simp [hne]

/-- Settles O42, by the coprimality of multiplier and modulus. -/
theorem theGeneratorStaysInItsRange : Obligations.TheGeneratorStaysInItsRange :=
  ⟨lcgSeed_mem, fun x hlo hhi => ⟨toNat_lcgStep x, lcgStep_mem hlo hhi⟩, fun _ => lcgSeed_toNat⟩

theorem lcgAccepts_iff {y : LcgState} : lcgAccepts y = true ↔ y.toNat - 1 < 2147483392 := decide_eq_true_iff

theorem lcgAccepts_eq_false_iff {y : LcgState} : lcgAccepts y = false ↔ 2147483392 ≤ y.toNat - 1 := by
  rw [← Bool.not_eq_true, lcgAccepts_iff, Nat.not_lt]

/-- An accepted state's byte is its class number, which is below 256 (R164). -/
theorem toNat_lcgByte {y : LcgState} (hy : lcgAccepts y = true) : (lcgByte y).toNat = (y.toNat - 1) / 8388607 := by
  have hclass := lcgAccepts_iff.mp hy
  simp only [lcgByte, BitVec.toNat_ofNat]
  omega

/-- The step after a rejected state is accepted: a rejected state is one of the 254 highest (R165). -/
theorem lcgAccepts_step_of_rejected {y : LcgState} (hhi : y.toNat ≤ 2147483646) (hy : lcgAccepts y = false) :
    lcgAccepts (lcgStep y) = true := by
  have hrej := lcgAccepts_eq_false_iff.mp hy
  have hquot : 16807 * y.toNat / 2147483647 = 16806 := by omega
  rw [lcgAccepts_iff, toNat_lcgStep]
  omega

/-- With the first step accepted the draw ends there, whatever the bound on the passes (R164). -/
theorem lcgDrawLoop_of_accepts {x : LcgState} (h : lcgAccepts (lcgStep x) = true) (n : Nat) :
    lcgDrawLoop n x = (lcgByte (lcgStep x), lcgStep x) := by
  cases n <;> simp [lcgDrawLoop, h]

/-- With the first step rejected the loop goes on from there (R164). -/
theorem lcgDrawLoop_of_rejected {x : LcgState} (h : lcgAccepts (lcgStep x) = false) (n : Nat) :
    lcgDrawLoop (n + 1) x = lcgDrawLoop n (lcgStep x) := by
  simp [lcgDrawLoop, h]

/-- A draw of any bound above one pass ends in an accepted state, the first step or the second (R164, R165). -/
theorem exists_lcgDrawLoop {x : LcgState} (hlo : 1 ≤ x.toNat) (hhi : x.toNat ≤ 2147483646) :
    ∃ y : LcgState,
      (y = lcgStep x ∨ (y = lcgStep (lcgStep x) ∧ 2147483392 ≤ (lcgStep x).toNat - 1)) ∧
      lcgAccepts y = true ∧ ∀ n, lcgDrawLoop (n + 1) x = (lcgByte y, y) := by
  cases h : lcgAccepts (lcgStep x) with
  | true => exact ⟨lcgStep x, .inl rfl, h, fun n => lcgDrawLoop_of_accepts h (n + 1)⟩
  | false =>
    have h2 := lcgAccepts_step_of_rejected (lcgStep_mem hlo hhi).2 h
    exact ⟨lcgStep (lcgStep x), .inr ⟨rfl, lcgAccepts_eq_false_iff.mp h⟩, h2,
      fun n => (lcgDrawLoop_of_rejected h n).trans (lcgDrawLoop_of_accepts h2 n)⟩

/-- Settles O43: at most one step is rejected, so two passes reach the accepted one. -/
theorem aDrawTakesOneOrTwoSteps : Obligations.ADrawTakesOneOrTwoSteps := by
  intro x hlo hhi
  obtain ⟨y, hy, hacc, hdraw⟩ := exists_lcgDrawLoop hlo hhi
  have hxy : lcgDraw x = (lcgByte y, y) := hdraw 0
  refine ⟨⟨y, hy, lcgAccepts_iff.mp hacc, by rw [hxy], ?_⟩, fun n hn => ?_⟩
  · rw [hxy]
    exact toNat_lcgByte hacc
  · obtain ⟨m, rfl⟩ := Nat.exists_eq_add_of_le' hn
    rw [hdraw, hxy]

/-! ### The selector and one combined byte (R167, R168) -/

/-- The selector follows the count of bytes through a wrap of the cursor, as 8 divides 2^`CURSOR_W` (R167). -/
theorem selector_ofNat (hW : 3 ≤ W) (p : Nat) : selector (BitVec.ofNat W p) = Fin.ofNat 8 p := by
  apply Fin.ext
  simp only [selector, Fin.val_ofNat, BitVec.toNat_ofNat]
  exact Nat.mod_mod_of_dvd p (pow_dvd_pow 2 hW)

theorem cursor_eq_ofNat (s : Any.State G W) : s.cursor = BitVec.ofNat W s.cursor.toNat := by simp

/-- `XorByte` at a cursor that counts `p` bytes (R168). -/
theorem xorByte_of_cursor (hW : 3 ≤ W) (hc : s.cursor = BitVec.ofNat W p) (b : Byte) :
    xorByte P s b =
      { s with
        gen := s.gen.set (Fin.ofNat 8 p) (P.gdraw s.gen[Fin.ofNat 8 p]).2,
        cursor := BitVec.ofNat W (p + 1),
        buf := s.buf ++ [b ^^^ (P.gdraw s.gen[Fin.ofNat 8 p]).1] } := by
  simp only [xorByte, advanceCursor, bufAppend, genDraw, hc, selector_ofNat hW, BitVec.ofNat_add]
  rfl

/-! ### The add commands (R171-R173) -/

/-- What ADDn does in the reference configuration: the room check, then the bytes in lane order (R171-R173). -/
theorem exec_of_addData (hi : addData i ≠ []) (s : State) :
    exec i s = .next
      (if s.buf.length + (addData i).length > 4096 then { s with errOvf := true }
       else (addData i).foldl (xorByte referenceParams) s) := by
  rw [exec_eq_perform, perform_of_addData hi]
  rfl

/-- `XorByte` of the reference configuration, with the selected generator given (R167, R168). -/
theorem xorByte_reference (s : State) {k : Fin 8} {n : Nat} (hc : s.cursor = BitVec.ofNat 64 n) (hk : k.val = n % 8)
    (b : Byte) :
    xorByte referenceParams s b =
      { s with
        gen := s.gen.set k (lcgDraw s.gen[k]).2,
        cursor := BitVec.ofNat 64 (n + 1),
        buf := s.buf ++ [b ^^^ (lcgDraw s.gen[k]).1] } := by
  obtain rfl : k = Fin.ofNat 8 n := Fin.ext hk
  exact xorByte_of_cursor (by decide) hc b

/-- Writing one generator leaves the others as they are (R166). -/
theorem getElem_gen_set_ne (g : GenBank G) {j k : Fin 8} (v : G) (h : k ≠ j) : (g.set j v)[k] = g[k] :=
  Vector.getElem_set_ne _ _ fun he => h (Fin.ext he.symm)

/-- Two successive bytes take two different generators (R172). -/
theorem xorByte_reference_two (s : State) {i0 i1 : Fin 8} (h0 : i0.val = s.cursor.toNat % 8)
    (h1 : i1.val = (s.cursor.toNat + 1) % 8) (b0 b1 : Byte) :
    xorByte referenceParams (xorByte referenceParams s b0) b1 =
      { s with
        gen := (s.gen.set i0 (lcgDraw s.gen[i0]).2).set i1 (lcgDraw s.gen[i1]).2,
        cursor := BitVec.ofNat 64 (s.cursor.toNat + 2),
        buf := s.buf ++ [b0 ^^^ (lcgDraw s.gen[i0]).1, b1 ^^^ (lcgDraw s.gen[i1]).1] } := by
  have h10 : i1 ≠ i0 := by omega
  rw [xorByte_reference s (cursor_eq_ofNat s) h0, xorByte_reference _ rfl h1]
  simp only [getElem_gen_set_ne _ _ h10, List.append_assoc, List.cons_append, List.nil_append]

/-- Three successive bytes take three different generators (R173). -/
theorem xorByte_reference_three (s : State) {i0 i1 i2 : Fin 8} (h0 : i0.val = s.cursor.toNat % 8)
    (h1 : i1.val = (s.cursor.toNat + 1) % 8) (h2 : i2.val = (s.cursor.toNat + 2) % 8) (b0 b1 b2 : Byte) :
    xorByte referenceParams (xorByte referenceParams (xorByte referenceParams s b0) b1) b2 =
      { s with
        gen := ((s.gen.set i0 (lcgDraw s.gen[i0]).2).set i1 (lcgDraw s.gen[i1]).2).set i2 (lcgDraw s.gen[i2]).2,
        cursor := BitVec.ofNat 64 (s.cursor.toNat + 3),
        buf := s.buf ++
          [b0 ^^^ (lcgDraw s.gen[i0]).1, b1 ^^^ (lcgDraw s.gen[i1]).1, b2 ^^^ (lcgDraw s.gen[i2]).1] } := by
  have h20 : i2 ≠ i0 := by omega
  have h21 : i2 ≠ i1 := by omega
  rw [xorByte_reference_two s h0 h1, xorByte_reference _ rfl h2]
  simp only [getElem_gen_set_ne _ _ h20, getElem_gen_set_ne _ _ h21, List.append_assoc, List.cons_append,
    List.nil_append]

/-- Settles O25: format B1, the room check and one combined byte. -/
theorem add1CombinesOneByte : Obligations.Add1CombinesOneByte := by
  intro b0 s i0 h0
  refine ⟨decode_ofLanes (f := .b1) rfl ((reservedClear_ofLanes ..).mpr ⟨rfl, rfl⟩), ?_⟩
  rw [← xorByte_reference s (cursor_eq_ofNat s) h0]
  exact exec_of_addData (i := .add1 b0) (List.cons_ne_nil _ _) s

/-- Settles O26: format B2, the room check and two combined bytes. -/
theorem add2CombinesTwoBytesOrNone : Obligations.Add2CombinesTwoBytesOrNone := by
  intro b0 b1 s i0 i1 h0 h1
  refine ⟨decode_ofLanes (f := .b2) rfl ((reservedClear_ofLanes ..).mpr rfl), ?_⟩
  rw [← xorByte_reference_two s h0 h1]
  exact exec_of_addData (i := .add2 b0 b1) (List.cons_ne_nil _ _) s

/-- Settles O27: format B3, which reserves no bit, the room check and three combined bytes. -/
theorem add3CombinesThreeBytesOrNone : Obligations.Add3CombinesThreeBytesOrNone := by
  intro b0 b1 b2 s i0 i1 i2 h0 h1 h2
  refine ⟨decode_ofLanes (f := .b3) rfl ((reservedClear_ofLanes ..).mpr trivial), ?_⟩
  rw [← xorByte_reference_three s h0 h1 h2]
  exact exec_of_addData (i := .add3 b0 b1 b2) (List.cons_ne_nil _ _) s

/-! ### The keystream by position (R175, R176) -/

/-- Generator `i` has been drawn from once for each position below `p` that selects it. -/
theorem drawsBefore_succ (p : Nat) (i : Fin 8) :
    drawsBefore (p + 1) i = drawsBefore p i + if Fin.ofNat 8 p = i then 1 else 0 := by
  simp only [drawsBefore, List.range_succ, List.filter_append, List.length_append, Fin.ext_iff, Fin.val_ofNat]
  by_cases h : p % 8 = i.val <;> simp [h]

theorem drawsBefore_eq (p : Nat) (i : Fin 8) : drawsBefore p i = (p + 7 - i.val) / 8 := by
  induction p with
  | zero => simp only [drawsBefore, List.range_zero, List.filter_nil, List.length_nil]; omega
  | succ p ih =>
    rw [drawsBefore_succ, ih]
    simp only [Fin.ext_iff, Fin.val_ofNat]
    split <;> omega

/-- The draw for position `p` is its generator's draw number `p div 8` (R175). -/
theorem drawsBefore_selected (p : Nat) : drawsBefore p (Fin.ofNat 8 p) = p / 8 := by
  rw [drawsBefore_eq, Fin.val_ofNat]
  omega

/-- The selected generator's next byte at position `p` is `KS(p)` (R175). -/
theorem gdraw_selected (h : AtPosition P s p) : (P.gdraw s.gen[Fin.ofNat 8 p]).1 = keystream P s.seed p := by
  obtain ⟨-, hgen⟩ := h
  rw [hgen, drawsBefore_selected]
  rfl

/-- One combined byte moves the session one position on (R168, R40 (d)). -/
theorem atPosition_xorByte (hW : 3 ≤ W) (h : AtPosition P s p) (b : Byte) : AtPosition P (xorByte P s b) (p + 1) := by
  obtain ⟨hc, hgen⟩ := h
  rw [xorByte_of_cursor hW hc]
  refine ⟨rfl, fun i => ?_⟩
  rw [drawsBefore_succ]
  by_cases hi : Fin.ofNat 8 p = i
  · subst hi
    simp [hgen, genAfter]
  · rw [getElem_gen_set_ne _ _ (Ne.symm hi), hgen, if_neg hi, Nat.add_zero]

/-- Bytes combined with the keystream from position `p` on (R175, R176). -/
def xorFrom (P : Params G W) (seeds : SeedSet) (p : Nat) (xs : List Byte) : List Byte :=
  xs.mapIdx fun j x => x ^^^ keystream P seeds (p + j)

variable {seeds : SeedSet}

@[simp] theorem xorFrom_nil : xorFrom P seeds p [] = [] := rfl

theorem xorFrom_cons (x : Byte) (xs : List Byte) :
    xorFrom P seeds p (x :: xs) = (x ^^^ keystream P seeds p) :: xorFrom P seeds (p + 1) xs := by
  simp [xorFrom, List.mapIdx_cons, Nat.add_comm, Nat.add_left_comm]

/-- The keystream goes on where the first bytes end. -/
theorem xorFrom_append (xs ys : List Byte) :
    xorFrom P seeds p (xs ++ ys) = xorFrom P seeds p xs ++ xorFrom P seeds (p + xs.length) ys := by
  simp [xorFrom, List.mapIdx_append, Nat.add_comm, Nat.add_left_comm]

/-- The combiner undoes itself: `(x ^ k) ^ k = x` (R169). -/
theorem xorFrom_xorFrom (xs : List Byte) : xorFrom P seeds p (xorFrom P seeds p xs) = xs := by
  induction xs generalizing p with
  | nil => rfl
  | cons x xs ih => rw [xorFrom_cons, xorFrom_cons, ih, BitVec.xor_assoc, BitVec.xor_self, BitVec.xor_zero]

/-- The bytes of an add that fits, from position `p` on (R168, R176). -/
theorem foldl_xorByte_atPosition (hW : 3 ≤ W) (h : AtPosition P s p) (bs : List Byte) :
    (bs.foldl (xorByte P) s).buf = s.buf ++ xorFrom P s.seed p bs ∧
    (bs.foldl (xorByte P) s).seed = s.seed ∧
    AtPosition P (bs.foldl (xorByte P) s) (p + bs.length) := by
  induction bs generalizing s p with
  | nil => exact ⟨(List.append_nil _).symm, rfl, h⟩
  | cons b bs ih =>
    obtain ⟨hbuf, hseed, hpos⟩ := ih (atPosition_xorByte hW h b)
    have hbyte : (xorByte P s b).buf = s.buf ++ [b ^^^ keystream P s.seed p] := by
      rw [← gdraw_selected h, xorByte_of_cursor hW h.1]
    refine ⟨?_, hseed, ?_⟩
    · rw [List.foldl_cons, hbuf, hbyte, xorByte_seed, xorFrom_cons, List.append_assoc, List.singleton_append]
    · rw [List.length_cons, Nat.add_comm bs.length, ← Nat.add_assoc]
      exact hpos

/-! ### What a word does within a session -/

/-- The state the keystream depends on: `GEN`, `SEED` and `CURSOR` (R166). -/
def keystreamPart (s : Any.State G W) : GenBank G × SeedSet × Count W := (s.gen, s.seed, s.cursor)

theorem atPosition_of_keystreamPart_eq (h : keystreamPart t = keystreamPart s) (hs : AtPosition P s p) :
    AtPosition P t p := by
  simp only [keystreamPart, Prod.mk.injEq] at h
  obtain ⟨hgen, hseed, hcursor⟩ := h
  simpa only [AtPosition, hgen, hseed, hcursor] using hs

theorem keystreamPart_reject (e : CommandError) : keystreamPart (reject e s) = keystreamPart s := by
  simp [keystreamPart]

theorem keystreamPart_drain (n : Nat) : keystreamPart (drain n s) = keystreamPart s := by
  rw [drain_eq]
  rfl

/-- Only adds and session starts move the keystream (R166, R176). -/
theorem keystreamPart_perform (hadd : addData i = []) (hstart : startsSession i s = false) :
    keystreamPart (perform P i s) = keystreamPart s := by
  by_cases hhash : i = .ppBegin ∨ absorbData i ≠ []
  · obtain ⟨hgen, hseed, hcursor, -⟩ := sessionPart_eq_iff.mp (sessionPart_perform_of_hasher (P := P) (s := s) hhash)
    simp only [keystreamPart, hgen, hseed, hcursor]
  · cases i with
    | rstDef => simp [startsSession] at hstart
    | ppEnd => rw [perform, ppEnd_of_closed hstart, keystreamPart_reject]
    | ppBegin | ppAbs1 | ppAbs2 | ppAbs3 => simp [absorbData] at hhash
    | add1 | add2 | add3 => simp [addData] at hadd
    | drain1 | drain2 | drain3 => exact keystreamPart_drain _
    | _ => rfl

/-- A command other than an add that starts no session appends nothing: it takes from the buffer or leaves it (R51). -/
theorem length_buf_perform_le (hadd : addData i = []) (hstart : startsSession i s = false) :
    (perform P i s).buf.length ≤ s.buf.length := by
  by_cases hflush : i = .flush
  · subst hflush
    exact Nat.zero_le _
  · cases hdrain : isDrain i with
    | true =>
      obtain ⟨k, -, hbuf⟩ := buf_perform_of_drain (P := P) (s := s) hdrain
      rw [hbuf, List.length_drop]
      exact Nat.sub_le ..
    | false => rw [buf_perform_of_other hflush hstart hdrain hadd]

theorem performWord_of_command (h : decode w = .command i) : performWord P w s = perform P i s := by
  simp [performWord, h]

theorem inputOf_of_command (h : decode w = .command i) :
    inputOf P w s = if s.buf.length + (addData i).length ≤ P.bufDepth then addData i else [] := by
  simp [inputOf, h]

theorem inputOf_of_illegal {why : Illegal} (h : decode w = .illegal why) : inputOf P w s = [] := by
  simp [inputOf, h]

theorem startsSession_of_keepsSession (h : decode w = .command i) (hkeep : keepsSession w s = true) :
    startsSession i s = false := by
  simpa [keepsSession, h] using hkeep

theorem appendedBy_of_length_le (h : (performWord P w s).buf.length ≤ s.buf.length) : appendedBy P w s = [] :=
  List.drop_of_length_le h

theorem appendedBy_of_reject {e : CommandError} (h : performWord P w s = reject e s) : appendedBy P w s = [] :=
  appendedBy_of_length_le (by rw [h, reject_buf])

/-- A word that starts no session either leaves the keystream where it was and adds nothing, or combines its input byte
by byte (R171-R173, R176). -/
theorem performWord_cases (hkeep : keepsSession w s = true) :
    (inputOf P w s = [] ∧ appendedBy P w s = [] ∧ keystreamPart (performWord P w s) = keystreamPart s) ∨
    performWord P w s = (inputOf P w s).foldl (xorByte P) s := by
  cases hdec : decode w with
  | illegal why =>
    have hp : performWord P w s = reject .ill s := performWord_of_illegal hdec
    exact .inl ⟨inputOf_of_illegal hdec, appendedBy_of_reject hp, by rw [hp, keystreamPart_reject]⟩
  | command i =>
    have hp : performWord P w s = perform P i s := performWord_of_command hdec
    by_cases hadd : addData i = []
    · have hstart := startsSession_of_keepsSession hdec hkeep
      refine .inl ⟨by simp [inputOf_of_command hdec, hadd], appendedBy_of_length_le ?_, ?_⟩
      · rw [hp]
        exact length_buf_perform_le hadd hstart
      · rw [hp, keystreamPart_perform hadd hstart]
    · rw [perform_of_addData hadd] at hp
      rcases addBytes_cases P (addData i) s with ⟨hlen, hadds⟩ | ⟨hlen, hadds⟩ <;> rw [hadds] at hp
      · exact .inl ⟨by simp [inputOf_of_command hdec, hlen], appendedBy_of_reject hp, by rw [hp, keystreamPart_reject]⟩
      · exact .inr (by rw [hp, inputOf_of_command hdec, if_pos hlen])

theorem consumeResponse_of_none (h : s.rspPending = false) : consumeResponse s = s := by
  rw [consumeResponse, ← h]

/-- After a transaction no response is pending, and the rest is what the word left (R34). -/
theorem transact_fst : (transact P w s).1 = consumeResponse (performWord P w s) := by
  rw [transact, takeResponse]
  split
  · rfl
  · next h => exact (consumeResponse_of_none (Bool.eq_false_of_not_eq_true h)).symm

/-- One transaction of a session at position `p` (R176). -/
theorem transact_atPosition (hW : 3 ≤ W) (h : AtPosition P s p) (hkeep : keepsSession w s = true) :
    appendedBy P w s = xorFrom P s.seed p (inputOf P w s) ∧
    (transact P w s).1.seed = s.seed ∧
    AtPosition P (transact P w s).1 (p + (inputOf P w s).length) := by
  rw [transact_fst]
  rcases performWord_cases (P := P) hkeep with ⟨hin, hout, hpart⟩ | hp
  · rw [hin, hout]
    exact ⟨rfl, congrArg (·.2.1) hpart, atPosition_of_keystreamPart_eq hpart h⟩
  · obtain ⟨hbuf, hseed, hpos⟩ := foldl_xorByte_atPosition hW h (inputOf P w s)
    rw [appendedBy, hp, hbuf, List.drop_left]
    exact ⟨rfl, hseed, hpos⟩

theorem inSession_cons {ws : List Word} :
    inSession P (w :: ws) s = true ↔ keepsSession w s = true ∧ inSession P ws (transact P w s).1 = true := by
  simp [inSession]

/-- A run within a session from position `p` on (R176). -/
theorem run_atPosition {ws : List Word} (hW : 3 ≤ W) (h : AtPosition P s p) (hin : inSession P ws s = true) :
    (run P ws s).appended = xorFrom P s.seed p (run P ws s).added ∧
    (run P ws s).final.seed = s.seed ∧
    AtPosition P (run P ws s).final (p + (run P ws s).added.length) := by
  induction ws generalizing s p with
  | nil => exact ⟨rfl, rfl, h⟩
  | cons w ws ih =>
    obtain ⟨hkeep, hrest⟩ := inSession_cons.mp hin
    obtain ⟨hout, hseed, hpos⟩ := transact_atPosition hW h hkeep
    obtain ⟨houts, hseeds, hend⟩ := ih hpos hrest
    rw [hseed] at houts hseeds
    refine ⟨?_, hseeds, ?_⟩
    · simp only [run, xorFrom_append, hout, houts]
    · simp only [run, List.length_append, ← Nat.add_assoc]
      exact hend

/-- Settles O53: every word moves the session on by its own input, so the run by the whole of it. -/
theorem positionalPurity : Obligations.PositionalPurity := fun _ _ _ _ _ _ => run_atPosition

/-! ### What a drain answers (R74, R200) -/

/-- Of the four lanes a byte put in lane `j` shows in lane `j` alone (R200). -/
theorem lane_inLane {j k : Nat} (hk : k < 4) (b : Byte) : lane (inLane j b) k = if k = j then b else 0 := by
  apply BitVec.eq_of_getLsbD_eq
  intro m hm
  have h32 : 8 * k + m < 32 := by omega
  simp only [lane, inLane, BitVec.getLsbD_extractLsb', BitVec.getLsbD_shiftLeft, BitVec.getLsbD_setWidth, hm, h32,
    decide_true, Bool.true_and]
  rcases Nat.lt_trichotomy k j with h | rfl | h
  · have hlt : 8 * k + m < 8 * j := by omega
    simp [hlt, h.ne]
  · simp [show m < 32 by omega]
  · have h8 : 8 ≤ 8 * k + m - 8 * j := by omega
    simp [BitVec.getLsbD_of_ge b _ h8, h.ne']

theorem lane_or (v r : Word) (k : Nat) : lane (v ||| r) k = lane v k ||| lane r k := BitVec.extractLsb'_or

/-- The count field of a response is in lane 3 (R74). -/
theorem responseCount_eq_lane (r : Word) : responseCount r = (lane r 3).toNat % 4 := by
  simp [responseCount, lane, BitVec.extractLsb'_toNat]

/-- Lane `k` of a drain response: what stood there, and the byte placed there if there is one (R200). -/
theorem lane_orLanes {j k : Nat} (hk : k < 4) (r : Word) (bs : List Byte) :
    lane (orLanes j r bs) k = lane r k ||| if j ≤ k then bs.getD (k - j) 0 else 0 := by
  induction bs generalizing j r with
  | nil => simp [orLanes]
  | cons b bs ih =>
    rw [orLanes, ih, lane_or, lane_inLane hk]
    rcases Nat.lt_trichotomy k j with h | rfl | h
    · simp [h.ne, Nat.not_le.mpr h, Nat.not_le.mpr (Nat.lt_succ_of_lt h)]
    · simp
    · have hsub : k - j = k - (j + 1) + 1 := by omega
      simp [h.ne', h.le, Nat.succ_le_of_lt h, hsub]

/-- The response with no lane filled has its count in lane 3 and nothing else (R200). -/
theorem lane_drainHeader {c k : Nat} (hk : k < 4) :
    lane (drainHeader c) k = if k = 3 then (BitVec.ofNat 2 c).setWidth 8 else 0 := by
  have hall : ∀ (v : BitVec 2) (k : Fin 4),
      lane ((v ++ 0#24).setWidth 32) k = if k.val = 3 then v.setWidth 8 else 0 := by decide
  exact hall (BitVec.ofNat 2 c) ⟨k, hk⟩

/-- The count of a drain response is the number of its bytes (R74, R200). -/
theorem responseCount_orLanes {bs : List Byte} (h : bs.length ≤ 3) :
    responseCount (orLanes 0 (drainHeader bs.length) bs) = bs.length := by
  have hlane : lane (orLanes 0 (drainHeader bs.length) bs) 3 = (BitVec.ofNat 2 bs.length).setWidth 8 := by
    rw [lane_orLanes (by decide), lane_drainHeader (by decide)]
    simp [h]
  rw [responseCount_eq_lane, hlane, BitVec.toNat_setWidth, BitVec.toNat_ofNat]
  omega

/-- The bytes of a drain response are those put into it (R74, R200). -/
theorem responseBytes_orLanes {bs : List Byte} (h : bs.length ≤ 3) :
    responseBytes (orLanes 0 (drainHeader bs.length) bs) = bs := by
  rw [responseBytes, responseCount_orLanes h]
  refine List.ext_getElem (by simp) fun k hk hk' => ?_
  rw [List.getElem_map, List.getElem_range, lane_orLanes (by omega), lane_drainHeader (by omega)]
  simp [hk', show k ≠ 3 by omega]

/-! ### What a session drains (R177) -/

/-- The bytes of `Drain(n)`, `n` at most 3, are the oldest `n` of the buffer (R200). -/
theorem responseBytes_drain {n : Nat} (hn : n ≤ 3) : responseBytes (drain n s).rspWord = s.buf.take n := by
  rw [drain_eq, respond_rspWord, ← List.length_take]
  exact responseBytes_orLanes (List.length_take_le n s.buf |>.trans hn)

/-- A drain command is `Drain(n)` for an `n` of 1 to 3 (R201-R203). -/
theorem perform_of_isDrain (h : isDrain i = true) : ∃ n ≤ 3, ∀ s : Any.State G W, perform P i s = drain n s := by
  cases i with
  | drain1 => exact ⟨1, by decide, fun _ => rfl⟩
  | drain2 => exact ⟨2, by decide, fun _ => rfl⟩
  | drain3 => exact ⟨3, by decide, fun _ => rfl⟩
  | _ => simp [isDrain] at h

theorem drainedBy_of_drain (hdec : decode w = .command i) (h : isDrain i = true) :
    drainedBy P w s = responseBytes (perform P i s).rspWord := by
  obtain ⟨n, -, hp⟩ := perform_of_isDrain (P := P) h
  have hpending : (perform P i s).rspPending = true := by rw [hp, drain_eq, respond_rspPending]
  simp [drainedBy, transact, takeResponse, performWord_of_command hdec, hdec, h, hpending]

theorem drainedBy_of_not_drain (h : ∀ i, decode w = .command i → isDrain i = false) : drainedBy P w s = [] := by
  unfold drainedBy
  split <;> simp_all

/-- A command that neither drains, flushes nor starts a session keeps the bytes there are, in front (R51). -/
theorem buf_prefix_perform (hflush : i ≠ .flush) (hstart : startsSession i s = false) (hdrain : isDrain i = false) :
    s.buf <+: (perform P i s).buf := by
  by_cases hadd : addData i = []
  · rw [buf_perform_of_other hflush hstart hdrain hadd]
  · obtain ⟨out, -, hbuf⟩ := buf_perform_of_addData (P := P) (s := s) hadd
    exact ⟨out, hbuf.symm⟩

theorem buf_append_appendedBy (h : s.buf <+: (performWord P w s).buf) :
    s.buf ++ appendedBy P w s = (performWord P w s).buf :=
  List.prefix_iff_eq_append.mp h

/-- Through one word of a session, no FLUSH, every byte buffered or appended is drained or still buffered, in order
(R51, R177). -/
theorem drainedBy_append_buf (hkeep : keepsSession w s = true) (hflush : notFlush w = true) :
    drainedBy P w s ++ (performWord P w s).buf = s.buf ++ appendedBy P w s := by
  cases hdec : decode w with
  | illegal why =>
    have hbuf : (performWord P w s).buf = s.buf := by rw [performWord_of_illegal hdec, reject_buf]
    rw [drainedBy_of_not_drain (by simp [hdec]), buf_append_appendedBy (by rw [hbuf]), List.nil_append]
  | command i =>
    cases hdrain : isDrain i with
    | true =>
      obtain ⟨n, hn, hp⟩ := perform_of_isDrain (P := P) hdrain
      have hbuf : (performWord P w s).buf = s.buf.drop n := by
        rw [performWord_of_command hdec, hp, drain_eq, respond_buf]
      rw [drainedBy_of_drain hdec hdrain, hp, responseBytes_drain hn, hbuf, List.take_append_drop,
        appendedBy_of_length_le (by simp [hbuf]), List.append_nil]
    | false =>
      have hne : i ≠ .flush := by
        rintro rfl
        simp [notFlush, hdec] at hflush
      have hprefix := buf_prefix_perform (P := P) hne (startsSession_of_keepsSession hdec hkeep) hdrain
      rw [← performWord_of_command hdec] at hprefix
      rw [drainedBy_of_not_drain (by simp [hdec, hdrain]), buf_append_appendedBy hprefix, List.nil_append]

/-- Through a run within a session, no FLUSH, every byte buffered or appended is drained or still buffered, in order
(R177). -/
theorem drained_append_buf {ws : List Word} (hin : inSession P ws s = true) (hflush : ws.all notFlush = true) :
    (run P ws s).drained ++ (run P ws s).final.buf = s.buf ++ (run P ws s).appended := by
  induction ws generalizing s with
  | nil => simp [run]
  | cons w ws ih =>
    obtain ⟨hkeep, hrest⟩ := inSession_cons.mp hin
    obtain ⟨hw, hws⟩ := by simpa only [List.all_cons, Bool.and_eq_true] using hflush
    have hnext : (transact P w s).1.buf = (performWord P w s).buf := by rw [transact_fst, consumeResponse_buf]
    simp only [run]
    rw [List.append_assoc, ih hrest hws, hnext, ← List.append_assoc, drainedBy_append_buf hkeep hw, List.append_assoc]

/-- A fresh session is at position 0 (R40 (d), R141). -/
theorem atPosition_of_fresh (h : Fresh P s) : AtPosition P s 0 := by
  obtain ⟨hcursor, -, hgen⟩ := h
  refine ⟨hcursor, fun i => ?_⟩
  rw [hgen, getElem_seedBank]
  rfl

/-- What a fresh session has drained and still holds is its whole input combined with the keystream (R177). -/
theorem run_of_fresh {ws : List Word} (hW : 3 ≤ W) (h : Fresh P s) (hin : inSession P ws s = true)
    (hflush : ws.all notFlush = true) :
    (run P ws s).drained ++ (run P ws s).final.buf = xorFrom P s.seed 0 (run P ws s).added := by
  obtain ⟨hout, -, -⟩ := run_atPosition hW (atPosition_of_fresh h) hin
  obtain ⟨-, hbuf, -⟩ := h
  rw [drained_append_buf hin hflush, hbuf, List.nil_append, hout]

/-- Settles O54: the bytes appended are kept in order, and they are the input combined with the keystream. -/
theorem chunkInvariance : Obligations.ChunkInvariance := by
  refine ⟨fun G W P ws s hW h hin hflush => ?_, fun _ _ _ _ => rfl⟩
  simpa only [xorFrom, Nat.zero_add] using run_of_fresh hW h hin hflush

/-! ### Two sessions on one passphrase (R178) -/

/-- PP_END with a passphrase open starts a fresh session (R141, R146). -/
theorem fresh_ppEnd (h : s.ppOpen = true) : Fresh P (perform P .ppEnd s) := by
  rw [perform, ppEnd_of_open h]
  exact ⟨rfl, rfl, rfl⟩

theorem seed_ppEnd (h : s.ppOpen = true) : (perform P .ppEnd s).seed = derive P s.ppMsg := by
  rw [perform, ppEnd_of_open h, sessionStart_seed]

/-- The keystream applied again to what was drained and to what is still held gives the input back (R169). -/
theorem xorFrom_drained {drained held added : List Byte} (h : drained ++ held = xorFrom P seeds p added) :
    xorFrom P seeds p drained ++ xorFrom P seeds (p + drained.length) held = added := by
  rw [← xorFrom_append, h, xorFrom_xorFrom]

/-- Settles O55: the second session combines what the first drained with the same keystream, which undoes it. -/
theorem selfInverse : Obligations.SelfInverse := by
  intro G W P u v ws vs hW hu hv hmsg hinu hinv hwsu hvsv hfed
  have h1 := xorFrom_drained (run_of_fresh hW (fresh_ppEnd hu) hinu hwsu)
  have h2 := run_of_fresh hW (fresh_ppEnd hv) hinv hvsv
  rw [seed_ppEnd hv, ← hmsg, ← seed_ppEnd (P := P) hu, hfed] at h2
  rw [← h2, List.append_assoc] at h1
  refine ⟨⟨_, h1⟩, fun hheld1 hheld2 => ?_⟩
  rw [← h1, hheld1, hheld2, xorFrom_nil, List.append_nil, List.append_nil]

end Sys2Proof.Machine
end

