-- ==== Sys2Proof/Proofs/Drain.lean ====
section
/-!
The drain commands, FLUSH and the buffer and count readouts (43_drain.md R200-R215): the lanes of a drain response say what
was popped, and a readout is one `respond` of the value it reads.
-/
namespace Sys2Proof.Machine

variable {G : Type} {W : Nat} {s : Any.State G W}

/-! ### The drains (R200-R203) -/

/-- Bits [31:24] of a word, read as a number, are its lane 3 (R57). -/
theorem toNat_lane_three (r : Word) : (lane r 3).toNat = r.toNat / 2 ^ 24 := by
  rw [lane, BitVec.extractLsb'_toNat, Nat.shiftRight_eq_div_pow]
  omega

/-- The lanes of the response of `Drain(n)`: the number of bytes popped, and below it the oldest bytes in order (R200). -/
theorem lane_rspWord_drain {n k : Nat} (hn : n ≤ 3) (hk : k < 4) :
    lane (drain n s).rspWord k =
      if k = 3 then BitVec.ofNat 8 (min n s.buf.length) else if k < n then s.buf.getD k 0 else 0 := by
  rw [drain_eq, respond_rspWord, lane_orLanes hk, lane_drainHeader hk]
  rcases eq_or_ne k 3 with rfl | h3
  · have hcount : (BitVec.ofNat 2 (min n s.buf.length)).setWidth 8 = BitVec.ofNat 8 (min n s.buf.length) := by
      apply BitVec.eq_of_toNat_eq
      simp only [BitVec.toNat_setWidth, BitVec.toNat_ofNat]
      omega
    simp [hcount, Nat.not_lt.mpr hn]
  · by_cases hkn : k < n <;> simp [h3, hkn]

/-- What a drain command does in the reference configuration, its response told by its bytes (R200-R203). -/
theorem exec_of_drain {i : Instr} {n : Nat} (hn : n ≤ 3) (s : State) (hi : perform referenceParams i s = drain n s) :
    ∃ r : Word,
      exec i s = .next { s with buf := s.buf.drop n, rspPending := true, rspWord := r } ∧
      r.toNat / 2 ^ 24 = min n s.buf.length ∧
      (∀ j : Nat, j < n → lane r j = s.buf.getD j 0) ∧
      (∀ j : Nat, n ≤ j → j < 3 → lane r j = 0) := by
  refine ⟨(drain n s).rspWord, ?_, ?_, fun j hj => ?_, fun j hnj hj => ?_⟩
  · rw [exec_eq_perform, hi, drain_eq]
    rfl
  · rw [← toNat_lane_three, lane_rspWord_drain hn (by decide), if_pos rfl, BitVec.toNat_ofNat]
    omega
  · rw [lane_rspWord_drain hn (by omega), if_neg (by omega), if_pos hj]
  · rw [lane_rspWord_drain hn (by omega), if_neg (by omega), if_neg (by omega)]

/-- Settles O28: each drain command is `Drain(n)` of its own count. -/
theorem drainAnswersTheOldestBytes : Obligations.DrainAnswersTheOldestBytes := by
  refine ⟨by decide, by decide, by decide, fun s i n hin => ?_⟩
  simp only [List.mem_cons, Prod.mk.injEq, List.not_mem_nil, or_false] at hin
  rcases hin with ⟨rfl, rfl⟩ | ⟨rfl, rfl⟩ | ⟨rfl, rfl⟩ <;> exact exec_of_drain (by decide) s rfl

/-! ### FLUSH and the readouts (R208-R215) -/

/-- Settles O29: FLUSH is `BufClear`, and an empty buffer is not full. -/
theorem flushEmptiesTheBufferAlone : Obligations.FlushEmptiesTheBufferAlone :=
  ⟨by decide, fun _ => ⟨rfl, rfl, rfl⟩⟩

/-- Settles O31: a length of at most `BUF_DEPTH` fits into the response word. -/
theorem rdSizeAnswersTheBufferLength : Obligations.RdSizeAnswersTheBufferLength := by
  refine ⟨by decide, fun s => ⟨BitVec.ofNat 32 s.buf.length, rfl, fun hlen => ?_⟩⟩
  rw [BitVec.toNat_ofNat]
  omega

/-- The high half of the reference cursor as a number (R212). -/
theorem toNat_countHi (c : Count 64) : (countHi c).toNat = c.toNat / 2 ^ 32 := by
  rw [countHi, BitVec.extractLsb'_toNat, Nat.shiftRight_eq_div_pow]
  omega

/-- The low half of the cursor as a number (R212). -/
theorem toNat_countLo (c : Count W) : (countLo c).toNat = c.toNat % 2 ^ 32 := by
  rw [countLo, BitVec.extractLsb'_toNat, Nat.shiftRight_zero]

/-- Settles O32: the halves are quotient and remainder by 2^32, which make up the cursor. -/
theorem rdTotalLoAnswersTheLowHalfAndKeepsTheHigh : Obligations.RdTotalLoAnswersTheLowHalfAndKeepsTheHigh := by
  refine ⟨by decide, fun s => ⟨countHi s.cursor, countLo s.cursor, rfl, toNat_countHi _, toNat_countLo _, ?_⟩⟩
  rw [toNat_countHi, toNat_countLo, Nat.div_add_mod']

/-- Settles O33: the readout responds with the snapshot. -/
theorem rdTotalHiAnswersTheSnapshot : Obligations.RdTotalHiAnswersTheSnapshot :=
  ⟨by decide, fun _ => rfl⟩

end Sys2Proof.Machine
end

