-- ==== Sys2Proof/Proofs/Status.lean ====
section
/-!
NOP, RD_STATUS and RD_SEED (44_status_misc.md R230-R234): NOP leaves the state as it is, and a readout is one `respond` of
the value it reads.
-/
namespace Sys2Proof.Machine

variable {G : Type} {W : Nat} {P : Params G W} {s : Any.State G W} {w : Word}

/-! ### NOP (R230) -/

/-- The only word of NOP is its encoding, all zeros (R77, R230). -/
theorem eq_zero_of_decode_nop (h : decode w = .command .nop) : w = 0x00000000 :=
  calc
    w = encode .nop := (encode_of_decode h).symm
    _ = 0x00000000 := by decide

/-- Settles O18: a legal word is the encoding of its command, and NOP performs nothing. -/
theorem nopChangesNothing : Obligations.NopChangesNothing :=
  ⟨by decide, fun _ hw h => hw (eq_zero_of_decode_nop h), fun _ => exec_eq_perform .nop _⟩

/-! ### RD_STATUS (R232) -/

/-- STATUS shows nothing of the response channel (R35). -/
@[simp] theorem statusWord_respond (v : Word) : statusWord P (respond v s) = statusWord P s := rfl

/-- Settles O30: the readout responds with STATUS, which a response leaves as it is. -/
theorem rdStatusAnswersStatus : Obligations.RdStatusAnswersStatus :=
  ⟨by decide, fun s => ⟨rdStatus referenceParams s, exec_eq_perform .rdStatus s, rfl, statusWord_respond _⟩⟩

/-! ### RD_SEED (R234) -/

/-- The word of RD_SEED carries the seed's index in its opcode (R72, R234). -/
theorem decode_rdSeed_word (i : Fin 8) :
    decode (BitVec.ofNat 32 (0x38000000 + i.val * 2 ^ 24)) = .command (.rdSeed i) := by
  revert i
  decide

/-- Settles O34: the word's index selects the seed the readout responds with. -/
theorem rdSeedAnswersTheSeed : Obligations.RdSeedAnswersTheSeed := fun i s =>
  ⟨decode_rdSeed_word i, exec_eq_perform (.rdSeed i) s⟩

end Sys2Proof.Machine
end

