-- ==== Sys2Proof/Proofs/Exceptions.lean ====
section
/-!
Rejection (60_exceptions.md R251, R252): outside the error bits a rejected state is the state before it.
-/
namespace Sys2Proof.Machine

variable {G : Type} {W : Nat} {s : Any.State G W}

/-- The frame of a rejection: with the error bits put back, nothing has changed (R252). -/
theorem reject_restore_errBits (e : CommandError) :
    { reject e s with
      errIll := s.errIll, errSeq := s.errSeq, errOvf := s.errOvf, errPplen := s.errPplen } = s := by
  cases e <;> rfl

/-- Settles O35: an illegal word and a command that fails a check both come down to `reject`, which sets its error's bit
and keeps the rest. -/
theorem aRejectedCommandSetsOneBitAndNothingElse : Obligations.ARejectedCommandSetsOneBitAndNothingElse := by
  refine ⟨fun _ _ _ _ _ _ hill => performWord_of_illegal hill, fun _ _ _ _ s e hrej => ?_⟩
  rw [perform_of_rejection hrej]
  exact ⟨errBit_reject s e, reject_restore_errBits e⟩

end Sys2Proof.Machine
end

/-!
The rules over all commands: decoder, encoder and assembler line (30_encoding.md R70-R80), the frame of every command and
what a step does (10_state.md R20-R34), the invariants every step keeps (R40), padding (R107), and runs: the
pseudo-instructions (R81), the total count (R213-R218), a reissued add (R288) and a clean end (R264).
-/
namespace Sys2Proof.Machine

variable {G : Type} {W : Nat} {P : Params G W} {i : Instr} {w : Word} {s t : Any.State G W} {p : Nat}

/-! ### The decoder against the encoder (R70-R80) -/

/-- The word of a command decodes to it: its opcode selects the command, and the bytes it does not carry are 0 (R71, R76). -/
theorem decode_encode (i : Instr) : decode (encode i) = .command i := by
  cases i with
  | ppAbs1 | add1 => exact decode_ofLanes (f := .b1) rfl ((reservedClear_ofLanes ..).mpr ⟨rfl, rfl⟩)
  | ppAbs2 | add2 => exact decode_ofLanes (f := .b2) rfl ((reservedClear_ofLanes ..).mpr rfl)
  | ppAbs3 | add3 => exact decode_ofLanes (f := .b3) rfl ((reservedClear_ofLanes ..).mpr trivial)
  | rdSeed k => revert k; decide
  | _ => decide

/-- Settles O2, format by format. -/
theorem decodeInvertsEncode : Obligations.DecodeInvertsEncode := decode_encode

/-- Settles O3: a legal word's lanes are those its command carries, and 0. -/
theorem encodeInvertsDecode : Obligations.EncodeInvertsDecode := fun _ _ => encode_of_decode

/-- Settles O1, by evaluating the decoder on each word. -/
theorem listedWordsDecodeAsTheSpecSays : Obligations.ListedWordsDecodeAsTheSpecSays := by
  unfold Obligations.ListedWordsDecodeAsTheSpecSays
  decide

/-- The opcodes R78 lists, as numbers: those that no command has. -/
def UnlistedOpcode (n : Nat) : Prop :=
  n = 0x02 ∨ n = 0x03 ∨ (0x09 ≤ n ∧ n ≤ 0x10) ∨ (0x14 ≤ n ∧ n ≤ 0x20) ∨ (0x25 ≤ n ∧ n ≤ 0x2F) ∨
    (0x34 ≤ n ∧ n ≤ 0x37) ∨ 0x40 ≤ n

/-- The opcodes of R78 are those that select no command (R73). -/
theorem ofOpcode_eq_none_iff {opc b0 b1 b2 : Byte} : ofOpcode opc b0 b1 b2 = none ↔ UnlistedOpcode opc.toNat := by
  unfold ofOpcode UnlistedOpcode
  split
  case h_19 =>
    simp only [imp_false] at *
    split
    · exact iff_of_false (Option.some_ne_none _) (by omega)
    · exact iff_of_true rfl (by omega)
  all_goals
    next hopc =>
    simp [hopc]

/-- A word is illegal for its opcode exactly when its opcode selects no command (R76). -/
theorem decode_eq_unlistedOpcode_iff :
    decode w = .illegal .unlistedOpcode ↔ ofOpcode (opcode w) (lane w 0) (lane w 1) (lane w 2) = none := by
  cases ho : ofOpcode (opcode w) (lane w 0) (lane w 1) (lane w 2) with
  | none => simp [decode, ho]
  | some fi =>
    rw [decode_of_ofOpcode ho]
    split <;> simp

/-- Settles O6: the opcode is the word's bits [31:24], and the opcodes of R78 select no command. -/
theorem unlistedOpcodesAreIllegal : Obligations.UnlistedOpcodesAreIllegal := by
  intro w
  rw [decode_eq_unlistedOpcode_iff, ofOpcode_eq_none_iff, opcode_eq_lane, toNat_lane_three]
  rfl

/-! ### How many words are legal (R78) -/

/-- The operands of a command of this mnemonic, as the model's constructors take them (R73). -/
def Operands : Mnemonic → Type
  | .RD_SEED => Fin 8
  | .PP_ABS1 | .ADD1 => Byte
  | .PP_ABS2 | .ADD2 => Byte × Byte
  | .PP_ABS3 | .ADD3 => Byte × Byte × Byte
  | .NOP | .RST_DEF | .PP_BEGIN | .PP_END | .DRAIN1 | .DRAIN2 | .DRAIN3 | .FLUSH
  | .RD_STATUS | .RD_SIZE | .RD_TOTAL_LO | .RD_TOTAL_HI => Unit

/-- The operands of a command. -/
def operandsOf : (i : Instr) → Operands i.mnemonic
  | .nop | .rstDef | .ppBegin | .ppEnd | .drain1 | .drain2 | .drain3 | .flush
  | .rdStatus | .rdSize | .rdTotalLo | .rdTotalHi => ()
  | .ppAbs1 b0 | .add1 b0 => b0
  | .ppAbs2 b0 b1 | .add2 b0 b1 => (b0, b1)
  | .ppAbs3 b0 b1 b2 | .add3 b0 b1 b2 => (b0, b1, b2)
  | .rdSeed k => k

/-- The command of a mnemonic with operands. -/
def instrOf : (m : Mnemonic) → Operands m → Instr
  | .NOP, _ => .nop
  | .RST_DEF, _ => .rstDef
  | .PP_BEGIN, _ => .ppBegin
  | .PP_ABS1, b0 => .ppAbs1 b0
  | .PP_ABS2, (b0, b1) => .ppAbs2 b0 b1
  | .PP_ABS3, (b0, b1, b2) => .ppAbs3 b0 b1 b2
  | .PP_END, _ => .ppEnd
  | .ADD1, b0 => .add1 b0
  | .ADD2, (b0, b1) => .add2 b0 b1
  | .ADD3, (b0, b1, b2) => .add3 b0 b1 b2
  | .DRAIN1, _ => .drain1
  | .DRAIN2, _ => .drain2
  | .DRAIN3, _ => .drain3
  | .FLUSH, _ => .flush
  | .RD_STATUS, _ => .rdStatus
  | .RD_SIZE, _ => .rdSize
  | .RD_TOTAL_LO, _ => .rdTotalLo
  | .RD_TOTAL_HI, _ => .rdTotalHi
  | .RD_SEED, k => .rdSeed k

/-- A command is its mnemonic with its operands. -/
def instrEquiv : Instr ≃ Σ m : Mnemonic, Operands m where
  toFun i := ⟨i.mnemonic, operandsOf i⟩
  invFun x := instrOf x.1 x.2
  left_inv i := by cases i <;> rfl
  right_inv x := by obtain ⟨m, x⟩ := x; cases m <;> rfl

theorem natCard_bitVec (n : Nat) : Nat.card (BitVec n) = 2 ^ n :=
  (Nat.card_congr FinEnum.equiv).trans (Nat.card_fin _)

/-- A mnemonic's operands are as many as its lines take, each below the line's bound (R80). -/
theorem card_operands (m : Mnemonic) : Nat.card (Operands m) = m.operandBound ^ m.operandCount := by
  cases m <;> simp [Operands, Mnemonic.operandBound, Mnemonic.operandCount, Nat.card_prod, natCard_bitVec, Nat.card_fin,
    -Nat.card_eq_fintype_card]

/-- The word of a command, as a legal word. -/
def legalWord (i : Instr) : { w : Word // ∃ i, decode w = .command i } := ⟨encode i, i, decode_encode i⟩

/-- Every command has its own word, and every legal word is a command's (R76, R77). -/
theorem legalWord_bijective : Function.Bijective legalWord := by
  refine ⟨fun i j h => ?_, fun ⟨w, i, h⟩ => ⟨i, Subtype.ext (encode_of_decode h)⟩⟩
  have henc : encode i = encode j := congrArg Subtype.val h
  exact Decoded.command.inj (by rw [← decode_encode i, henc, decode_encode j])

/-- The mnemonics are those of the opcode map's rows (R73). -/
@[reducible] def mnemonicFintype : Fintype Mnemonic :=
  Fintype.ofList (opcodeTable.map OpcodeRow.mnemonic) fun m => by cases m <;> decide

theorem finite_operands (m : Mnemonic) : Finite (Operands m) := by
  apply Nat.finite_of_card_ne_zero
  rw [card_operands]
  cases m <;> decide

/-- The number of commands, counted by mnemonic (R78). -/
theorem card_instr : Nat.card Instr = 33686036 := by
  let := mnemonicFintype
  have := finite_operands
  rw [Nat.card_congr instrEquiv, Nat.card_sigma]
  simp only [card_operands]
  rfl

/-- A word is legal or illegal, and not both. -/
theorem illegal_iff_not_legal : (∃ why, decode w = .illegal why) ↔ ¬ ∃ i, decode w = .command i := by
  cases decode w <;> simp

/-- Settles O7: the legal words are the commands, counted by mnemonic, and the illegal ones are the rest of 2^32. -/
theorem legalWordsNumber33686036 : Obligations.LegalWordsNumber33686036 := by
  have hlegal := (Nat.card_eq_of_bijective _ legalWord_bijective).symm.trans card_instr
  refine ⟨hlegal, ?_⟩
  have hall : Nat.card Word = 2 ^ 32 := natCard_bitVec 32
  classical
  have hsum := Nat.card_congr (Equiv.sumCompl fun w : Word => ∃ i, decode w = .command i)
  rw [Nat.card_sum, hlegal, hall] at hsum
  simp only [illegal_iff_not_legal]
  omega

/-! ### Assembler lines (R80) -/

theorem command_line (i : Instr) : i.line.command = some i := by
  cases i <;> simp [Instr.line, Instr.mnemonic, Line.command]

/-- A line with the right number of operands is some command's mnemonic with operands. -/
theorem exists_command_of_countOk {l : Line} (h : l.countOk = true) : ∃ i, l.command = some i := by
  obtain ⟨m, ns⟩ := l
  have hlen : ns.length = m.operandCount := beq_iff_eq.mp h
  cases m with
  | PP_ABS1 | ADD1 | RD_SEED =>
    obtain ⟨a, rfl⟩ := List.length_eq_one_iff.mp hlen
    exact ⟨_, rfl⟩
  | PP_ABS2 | ADD2 =>
    obtain ⟨a, b, rfl⟩ := List.length_eq_two.mp hlen
    exact ⟨_, rfl⟩
  | PP_ABS3 | ADD3 =>
    obtain ⟨a, b, c, rfl⟩ := List.length_eq_three.mp hlen
    exact ⟨_, rfl⟩
  | _ =>
    obtain rfl := List.length_eq_zero_iff.mp hlen
    exact ⟨_, rfl⟩

/-- A line whose operands are in range is the line of the command it stands for: no operand is cut to its width. -/
theorem line_of_command {l : Line} (hrange : l.rangeOk = true) (h : l.command = some i) : i.line = l := by
  obtain ⟨m, ns⟩ := l
  have hbound : ∀ n ∈ ns, n < m.operandBound := by simpa [Line.rangeOk] using hrange
  unfold Line.command at h
  split at h
  all_goals cases h
  all_goals
    next hm hns =>
    simp only at hm hns
    subst hm hns
    revert hbound
    simp +contextual [Instr.line, Instr.mnemonic, Mnemonic.operandBound, Nat.mod_eq_of_lt]

theorem assemble_of_wellFormed {l : Line} (hwf : l.wellFormed = true) (h : l.command = some i) :
    assemble l = some (encode i) := by
  simp [assemble, hwf, h]

/-- What assembling a line can do (R80). -/
theorem assemble_cases (l : Line) :
    (l.wellFormed = true ∧ ∃ i, i.line = l ∧ assemble l = some (encode i)) ∨
    (l.wellFormed = false ∧ assemble l = none) := by
  cases hwf : l.wellFormed with
  | true =>
    obtain ⟨hcount, hrange⟩ := Bool.and_eq_true_iff.mp hwf
    obtain ⟨i, hi⟩ := exists_command_of_countOk hcount
    exact .inl ⟨rfl, i, line_of_command hrange hi, assemble_of_wellFormed hwf hi⟩
  | false => exact .inr ⟨rfl, by simp [assemble, hwf]⟩

/-- Settles O8: a line in range is the line of its command, whose word decodes to it. -/
theorem aLineAssemblesToItsCommandsWord : Obligations.ALineAssemblesToItsCommandsWord := by
  refine ⟨fun i => assemble_of_wellFormed (row_of_instr i).1 (command_line i), fun l => ?_, fun l w h => ?_⟩
  · rcases assemble_cases l with ⟨hwf, i, -, ha⟩ | ⟨hwf, ha⟩ <;> simp [hwf, ha]
  · rcases assemble_cases l with ⟨-, i, hline, ha⟩ | ⟨-, ha⟩
    · obtain rfl : encode i = w := by simpa [ha] using h
      exact ⟨i, decode_encode i, hline⟩
    · simp [ha] at h

/-! ### The effect of a command by kind, and its frame (R23-R34) -/

/-- What a command that starts no session can do: it is rejected, it is an absorb or an add that fits, it opens the
passphrase, or it at most takes bytes from the head of the buffer, and answers if it is a responding command. -/
theorem perform_cases (hstart : startsSession i s = false) :
    (∃ e, rejection P i s = some e ∧ perform P i s = reject e s) ∨
    (absorbData i ≠ [] ∧ s.ppMsg.length + (absorbData i).length ≤ P.ppMaxBytes ∧
      perform P i s = { s with ppMsg := s.ppMsg ++ absorbData i }) ∨
    (addData i ≠ [] ∧ s.buf.length + (addData i).length ≤ P.bufDepth ∧
      perform P i s = (addData i).foldl (xorByte P) s) ∨
    (i = .ppBegin ∧ perform P i s = { s with ppOpen := true, ppMsg := [] }) ∨
    (∃ n, perform P i s = { s with buf := s.buf.drop n }) ∨
    (i.responds = true ∧ ∃ n v snap, (i ≠ .rdTotalLo → snap = s.totalHiSnap) ∧
      perform P i s = respond v { s with buf := s.buf.drop n, totalHiSnap := snap }) := by
  cases hr : rejection P i s with
  | some e => exact .inl ⟨e, rfl, perform_of_rejection hr⟩
  | none =>
    refine .inr ?_
    by_cases habs : absorbData i ≠ []
    · rcases perform_absorb_cases (P := P) (s := s) habs with ⟨-, he, -⟩ | ⟨-, he, -⟩ | ⟨ho, -, hp⟩
      · simp [hr] at he
      · simp [hr] at he
      · exact .inl ⟨habs, by simpa [rejection_of_absorbData habs, ho] using hr, hp⟩
    refine .inr ?_
    by_cases hadd : addData i ≠ []
    · rcases perform_add_cases (P := P) (s := s) hadd with ⟨he, -⟩ | ⟨-, hp⟩
      · simp [hr] at he
      · exact .inl ⟨hadd, by simpa [rejection_of_addData hadd] using hr, hp⟩
    refine .inr ?_
    cases i with
    | rstDef => simp [startsSession] at hstart
    | ppEnd => simp_all [startsSession, rejection]
    | ppAbs1 | ppAbs2 | ppAbs3 => simp [absorbData] at habs
    | add1 | add2 | add3 => simp [addData] at hadd
    | ppBegin => exact .inl ⟨rfl, rfl⟩
    | nop => exact .inr (.inl ⟨0, rfl⟩)
    | flush => exact .inr (.inl ⟨s.buf.length, by rw [List.drop_length]; rfl⟩)
    | drain1 | drain2 | drain3 => exact .inr (.inr ⟨rfl, _, _, _, fun _ => rfl, drain_eq _ s⟩)
    | rdTotalLo => exact .inr (.inr ⟨rfl, 0, _, _, fun h => absurd rfl h, rfl⟩)
    | rdStatus | rdSize | rdTotalHi | rdSeed => exact .inr (.inr ⟨rfl, 0, _, _, fun _ => rfl, rfl⟩)

/-- What a command that starts no session leaves as it is (R24, R27-R29, R33, R34). -/
theorem frame_perform (hstart : startsSession i s = false) :
    (perform P i s).seed = s.seed ∧ (perform P i s).modePp = s.modePp ∧
    (i ≠ .rdTotalLo → (perform P i s).totalHiSnap = s.totalHiSnap) ∧
    (i ≠ .ppBegin → (perform P i s).ppOpen = s.ppOpen) ∧
    (i ≠ .ppBegin → absorbData i = [] → (perform P i s).ppMsg = s.ppMsg) ∧
    (i.responds = false → (perform P i s).rspPending = s.rspPending ∧ (perform P i s).rspWord = s.rspWord) ∧
    (perform P i s).drawCount = s.drawCount ∧ (perform P i s).host = s.host := by
  rcases perform_cases (P := P) hstart with
    ⟨e, -, hp⟩ | ⟨habs, -, hp⟩ | ⟨-, -, hp⟩ | ⟨hi, hp⟩ | ⟨n, hp⟩ | ⟨hresp, n, v, snap, hsnap, hp⟩
  · simp [hp]
  · simp [hp, habs]
  · obtain ⟨g, out, -, hshape⟩ := foldl_xorByte_shape P (addData i) s
    simp [hp, hshape]
  · rw [hp]
    simp [hi]
  · simp [hp]
  · simp_all

/-- What a session start leaves as it is (R28, R29, R34, R141). -/
theorem frame_perform_of_startsSession (hstart : startsSession i s = true) :
    (i ≠ .ppEnd → (perform P i s).ppOpen = s.ppOpen) ∧ (perform P i s).ppMsg = s.ppMsg ∧
    (perform P i s).rspPending = s.rspPending ∧ (perform P i s).rspWord = s.rspWord ∧
    (i ≠ .rstDef → (perform P i s).drawCount = s.drawCount) ∧ (perform P i s).host = s.host := by
  rcases startsSession_iff.mp hstart with rfl | ⟨rfl, ho⟩
  · simp [perform, rstDef]
  · simp [perform, ppEnd_of_open ho]

/-- Settles O37: the frames of the two kinds of command, with the keystream, buffer and error bits of earlier lemmas. -/
theorem eachElementIsWrittenByItsOwnCommandsOnly : Obligations.EachElementIsWrittenByItsOwnCommandsOnly := by
  intro G W P i s
  cases hstart : startsSession i s with
  | true =>
    obtain ⟨hopen, hmsg, hpending, hword, hdraws, hhost⟩ := frame_perform_of_startsSession (P := P) hstart
    exact ⟨nofun, nofun, nofun, nofun, nofun, fun _ => hopen, fun _ _ => hmsg, fun _ => ⟨hpending, hword⟩, hdraws,
      hhost⟩
  | false =>
    obtain ⟨hseed, hmode, hsnap, hopen, hmsg, hrsp, hdraws, hhost⟩ := frame_perform (P := P) hstart
    refine ⟨fun _ => ⟨hseed, hmode⟩, fun _ hadd => ?_, fun _ hadd hdrain hflush => ?_, fun _ hr => ?_, fun _ => hsnap,
      fun hbegin _ => hopen hbegin, hmsg, hrsp, fun _ => hdraws, hhost⟩
    · have hpart := keystreamPart_perform (P := P) hadd hstart
      exact ⟨congrArg (·.1) hpart, congrArg (·.2.2) hpart⟩
    · exact buf_perform_of_other hflush hstart hdrain hadd
    · have herr := errBit_perform_of_accepted hr hstart
      exact ⟨herr .ill, herr .seq, herr .ovf, herr .pplen⟩

theorem rspPending_perform_of_responds (h : i.responds = true) : (perform P i s).rspPending = true := by
  cases i with
  | nop | rstDef | ppBegin | ppAbs1 | ppAbs2 | ppAbs3 | ppEnd | add1 | add2 | add3 | flush => simp [Instr.responds] at h
  | drain1 | drain2 | drain3 | rdStatus | rdSize | rdTotalLo | rdTotalHi | rdSeed => rfl

/-- A response is pending after a command exactly if one was, or the command responds (R34, R74). -/
theorem rspPending_perform : (perform P i s).rspPending = (s.rspPending || i.responds) := by
  cases h : i.responds with
  | true => rw [rspPending_perform_of_responds h, Bool.or_true]
  | false =>
    obtain ⟨-, -, -, -, -, -, -, hrsp, -, -⟩ := eachElementIsWrittenByItsOwnCommandsOnly G W P i s
    rw [(hrsp h).1, Bool.or_false]

/-- The host gets a response exactly if one is pending after the word (R34). -/
theorem isSome_transact_snd : (transact P w s).2.isSome = (performWord P w s).rspPending := by
  rw [transact, takeResponse]
  split <;> simp_all

/-- Settles O39: responding is the command's, and a word's only way to a response is its command. -/
theorem exactlyTheRespondingCommandsRespond : Obligations.ExactlyTheRespondingCommandsRespond := by
  refine ⟨fun _ _ _ _ _ => rspPending_perform, fun G W P w s hs => ?_⟩
  rw [isSome_transact_snd]
  cases hdec : decode w with
  | command i => simp [performWord_of_command hdec, rspPending_perform, hs]
  | illegal why => simp [performWord_of_illegal hdec, hs]

/-! ### The invariants (R40) -/

/-- The invariant asks of the keystream, and bounds two lengths. -/
theorem stateInv_of_le (h : StateInv P s) (hpart : keystreamPart t = keystreamPart s)
    (hbuf : t.buf.length ≤ s.buf.length) (hmsg : t.ppMsg.length ≤ s.ppMsg.length) : StateInv P t := by
  obtain ⟨⟨hb, hm⟩, p, hpos⟩ := h
  exact ⟨⟨hbuf.trans hb, hmsg.trans hm⟩, p, atPosition_of_keystreamPart_eq hpart hpos⟩

/-- A fresh session meets the invariant, at position 0, if its passphrase fits. -/
theorem stateInv_of_fresh (h : Fresh P s) (hmsg : s.ppMsg.length ≤ P.ppMaxBytes) : StateInv P s := by
  obtain ⟨-, hbuf, -⟩ := id h
  exact ⟨⟨by simp [hbuf], hmsg⟩, 0, atPosition_of_fresh h⟩

theorem fresh_defaultStart : Fresh P (defaultStart P s) := ⟨rfl, rfl, rfl⟩

theorem fresh_powerOnReset : Fresh P (powerOnReset P s) := ⟨rfl, rfl, rfl⟩

theorem fresh_perform_of_startsSession (h : startsSession i s = true) : Fresh P (perform P i s) := by
  rcases startsSession_iff.mp h with rfl | ⟨rfl, ho⟩
  · exact fresh_defaultStart
  · exact fresh_ppEnd ho

/-- An add that fits keeps the invariant, at the position its bytes later (R40 (a), (d)). -/
theorem stateInv_foldl_xorByte (hW : 3 ≤ W) (h : StateInv P s) {bs : List Byte}
    (hfit : s.buf.length + bs.length ≤ P.bufDepth) : StateInv P (bs.foldl (xorByte P) s) := by
  obtain ⟨⟨-, hm⟩, p, hpos⟩ := h
  obtain ⟨-, -, hpos'⟩ := foldl_xorByte_atPosition hW hpos bs
  obtain ⟨g, out, hlen, hshape⟩ := foldl_xorByte_shape P bs s
  refine ⟨⟨?_, ?_⟩, _, hpos'⟩
  · simpa [hshape, hlen] using hfit
  · simpa [hshape] using hm

/-- Every command keeps the invariant (R40). -/
theorem stateInv_perform (hW : 3 ≤ W) (h : StateInv P s) : StateInv P (perform P i s) := by
  cases hstart : startsSession i s with
  | true =>
    obtain ⟨⟨-, hm⟩, -⟩ := h
    obtain ⟨-, hmsg, -⟩ := frame_perform_of_startsSession (P := P) hstart
    exact stateInv_of_fresh (fresh_perform_of_startsSession hstart) (by rwa [hmsg])
  | false =>
    rcases perform_cases (P := P) hstart with
      ⟨e, -, hp⟩ | ⟨-, hfit, hp⟩ | ⟨-, hfit, hp⟩ | ⟨-, hp⟩ | ⟨n, hp⟩ | ⟨-, n, v, snap, -, hp⟩ <;> rw [hp]
    · exact stateInv_of_le h (keystreamPart_reject e) (by simp) (by simp)
    · obtain ⟨⟨hb, -⟩, hpos⟩ := h
      exact ⟨⟨hb, by simpa using hfit⟩, hpos⟩
    · exact stateInv_foldl_xorByte hW h hfit
    · exact stateInv_of_le h rfl le_rfl (Nat.zero_le _)
    · exact stateInv_of_le h rfl (by simp) le_rfl
    · exact stateInv_of_le h rfl (by simp) le_rfl

theorem stateInv_performWord (hW : 3 ≤ W) (h : StateInv P s) : StateInv P (performWord P w s) := by
  cases hdec : decode w with
  | command i =>
    rw [performWord_of_command hdec]
    exact stateInv_perform hW h
  | illegal why =>
    rw [performWord_of_illegal hdec]
    exact stateInv_of_le h (keystreamPart_reject _) (by simp) (by simp)

/-- Every step keeps the invariant (R40). -/
theorem stateInv_stepAt (hW : 3 ≤ W) (h : StateInv P s) (hstep : stepAt P s = .next t) : StateInv P t := by
  have hserved : ∀ rest, StateInv P { s with host := rest } := fun _ => h
  rcases stepAt_cases hstep with ⟨-, rfl⟩ | ⟨rest, -, rfl⟩ | ⟨rest, -, -, rfl⟩ | ⟨rest, -, -, rfl⟩ |
    ⟨w, rest, -, -, rfl⟩ | ⟨w, rest, -, -, rfl⟩
  · exact h
  · exact stateInv_of_fresh fresh_powerOnReset (Nat.zero_le _)
  · exact stateInv_of_le (hserved rest) rfl le_rfl le_rfl
  · exact h
  · exact h
  · exact stateInv_performWord hW (hserved rest)

/-- Settles O50: each of the step's cases keeps the bounds and the position. -/
theorem everyConfigurationKeepsItsInvariant : Obligations.EveryConfigurationKeepsItsInvariant :=
  fun _ _ _ _ _ => stateInv_stepAt

/-- A draw leaves the generator in its range (R163, R164). -/
theorem lcgDraw_mem {x : LcgState} (hlo : 1 ≤ x.toNat) (hhi : x.toNat ≤ 2147483646) :
    1 ≤ (lcgDraw x).2.toNat ∧ (lcgDraw x).2.toNat ≤ 2147483646 := by
  obtain ⟨y, hy, -, hdraw⟩ := exists_lcgDrawLoop hlo hhi
  have hx : (lcgDraw x).2 = y := congrArg Prod.snd (hdraw 0)
  have hstep := lcgStep_mem hlo hhi
  rw [hx]
  rcases hy with rfl | ⟨rfl, -⟩
  · exact hstep
  · exact lcgStep_mem hstep.1 hstep.2

/-- A seeded generator is in its range after any number of draws (R162-R164). -/
theorem genAfter_lcgSeed_mem (n : Nat) (seed : Word) :
    1 ≤ (genAfter referenceParams n (lcgSeed seed)).toNat ∧
      (genAfter referenceParams n (lcgSeed seed)).toNat ≤ 2147483646 := by
  induction n with
  | zero => exact lcgSeed_mem seed
  | succ n ih => exact lcgDraw_mem ih.1 ih.2

/-- Generators at a position of their session are in their range. -/
theorem gensInRange_of_positioned {s : State} (h : Positioned referenceParams s) : GensInRange s := by
  obtain ⟨p, -, hgen⟩ := h
  intro i
  rw [hgen]
  exact genAfter_lcgSeed_mem _ _

/-- `exec` is the effect in the reference configuration, and so `step` the step there (R9). -/
theorem step_eq_stepAt (s : State) : step s = stepAt referenceParams s := by
  have hexec : exec = fun i t => .next (perform referenceParams i t) := funext₂ exec_eq_perform
  rw [step, hexec, stepAt]

/-- Settles O48: the invariant of every configuration, from which the generators' range follows. -/
theorem everyStepKeepsTheInvariant : Obligations.EveryStepKeepsTheInvariant := by
  intro s t hinv _ hstep
  rw [step_eq_stepAt] at hstep
  have ht := stateInv_stepAt (by decide) hinv hstep
  exact ⟨ht, gensInRange_of_positioned ht.2⟩

theorem fresh_reset : Fresh referenceParams State.reset := ⟨rfl, rfl, reset_gen⟩

/-- Settles O49: reset starts a fresh session with an empty passphrase. -/
theorem resetMeetsTheInvariant : Obligations.ResetMeetsTheInvariant := by
  have hinv : StateInv referenceParams State.reset := stateInv_of_fresh fresh_reset (Nat.zero_le _)
  exact ⟨hinv, gensInRange_of_positioned hinv.2, atPosition_of_fresh fresh_reset⟩

/-! ### The command channel (R20, R34, R262, R280) -/

/-- A word offered while no response is pending is accepted (R20, R34). -/
theorem step_of_command {s : State} {rest : List HostInput} (hhost : s.host = .command w :: rest)
    (hpending : s.rspPending = false) : step s = acceptWord exec w { s with host := rest } := by
  simp [step, serve, hhost, hpending]

/-- Settles O9: the word is accepted, and its meaning is the command's. -/
theorem stepPerformsTheDecodedCommand : Obligations.StepPerformsTheDecodedCommand := by
  intro s w rest i hhost hpending hdec
  simp [step_of_command hhost hpending, acceptWord, hdec]

/-- Settles O10: the word is accepted, and an illegal one is rejected. -/
theorem stepRejectsAnIllegalWord : Obligations.StepRejectsAnIllegalWord := by
  intro s w rest why hhost hpending hdec
  simp only [step_of_command hhost hpending, acceptWord, hdec]
  rfl

theorem step_of_consume {s : State} {rest : List HostInput} (hhost : s.host = .consume :: rest)
    (hpending : s.rspPending = true) : step s = .next { s with rspPending := false, host := rest } := by
  simp [step, serve, hhost, hpending, consumeResponse]

/-- A word offered while a response is pending is not accepted (R34, R287). -/
theorem step_of_held_command {s : State} {rest : List HostInput} (hhost : s.host = .command w :: rest)
    (hpending : s.rspPending = true) : step s = .next s := by
  simp [step, serve, hhost, hpending]

/-- Settles O11: a word is held back while a response is pending, and consuming ends it. -/
theorem aPendingResponseHoldsTheNextCommand : Obligations.APendingResponseHoldsTheNextCommand := by
  refine fun s rest hpending => ⟨fun w hhost => ?_, fun hhost => step_of_consume hhost hpending⟩
  exact ⟨step_of_held_command hhost hpending, by simp [cmdReady, hpending], by simp [rspValid, rstN, hhost, hpending], rfl⟩

/-- Settles O12: with no word accepted, no response consumed and no reset, each input the host may wait with holds. -/
theorem nothingElseChangesTheState : Obligations.NothingElseChangesTheState := by
  intro s haccept hconsume hreset
  match hhost : s.host with
  | [] => simp [step, serve, hhost]
  | .reset :: rest => simp [rstN, hhost] at hreset
  | .consume :: rest =>
    have hpending : s.rspPending = false := by simpa [consumes, rspValid, rspReady, rstN, hhost] using hconsume
    simp [step, serve, hhost, hpending]
  | .command w :: rest =>
    have hpending : s.rspPending = true := by simpa [accepts, cmdValid, cmdReady, rstN, hhost] using haccept
    exact step_of_held_command hhost hpending

/-- STATUS after power-on reset: `BUF_EMPTY` alone (R39, R280). -/
theorem statusWord_powerOnReset (hdepth : P.bufDepth ≠ 0) : statusWord P (powerOnReset P s) = 0x00000001 :=
  statusWord_sessionStart (s := { s with ppOpen := false }) hdepth rfl (P.defaultSeeds s.drawCount) false

/-- Settles O13: the reset input is the power-on reset, a default session start with the channel cleared. -/
theorem resetInputReachesThePowerOnState : Obligations.ResetInputReachesThePowerOnState := by
  intro s rest hhost
  have hstep : step s = .next (powerOnReset referenceParams { s with host := rest }) := by simp [step, serve, hhost]
  exact ⟨by simp [cmdReady, rstN, hhost], by simp [rspValid, rstN, hhost], _, hstep, rfl,
    getElem_seedBank (P := referenceParams) _, rfl, rfl, rfl, rfl, errBit_powerOnReset, rfl, rfl,
    statusWord_powerOnReset (by decide), rfl, rfl⟩

/-- A table word of 32 bits is read as its 32-bit word (R70). -/
theorem decode_of_decodeTableWord {n : Nat} (h : decodeTableWord 32 n = some i) :
    decode (BitVec.ofNat 32 (n % 2 ^ 32)) = .command i := by
  unfold decodeTableWord at h
  cases hdec : decode (BitVec.ofNat 32 (n % 2 ^ 32)) <;> simp_all

/-- Settles O15: the placed word stands first with no response pending, so the step performs it. -/
theorem thePlacedWordRunsNext : Obligations.ThePlacedWordRunsNext := by
  intro s n i h
  exact stepPerformsTheDecodedCommand (s.withFetchWord 32 n) _ s.host i rfl rfl (decode_of_decodeTableWord h)

/-- The state with these host inputs still to come. -/
def withHost (hs : List HostInput) (s : Any.State G W) : Any.State G W := { s with host := hs }

theorem addBytes_withHost (bs : List Byte) (hs : List HostInput) :
    addBytes P bs (withHost hs s) = withHost hs (addBytes P bs s) := by
  have hfold : bs.foldl (xorByte P) (withHost hs s) = withHost hs (bs.foldl (xorByte P) s) :=
    List.foldl_hom (withHost hs) fun _ _ => rfl
  simp only [addBytes, hfold, apply_ite (withHost hs)]
  rfl

theorem absorbBytes_withHost (bs : List Byte) (hs : List HostInput) :
    absorbBytes P bs (withHost hs s) = withHost hs (absorbBytes P bs s) := by
  simp only [absorbBytes, foldl_ppAppend, apply_ite (withHost hs)]
  rfl

/-- No command reads the host's later inputs or changes them (R21, R263). -/
theorem perform_withHost (hs : List HostInput) : perform P i (withHost hs s) = withHost hs (perform P i s) := by
  cases i with
  | ppAbs1 | ppAbs2 | ppAbs3 => exact absorbBytes_withHost _ hs
  | add1 | add2 | add3 => exact addBytes_withHost _ hs
  | drain1 | drain2 | drain3 =>
    simp only [perform, drain1, drain2, drain3, drain_eq]
    rfl
  | ppEnd =>
    simp only [perform, ppEnd, apply_ite (withHost hs)]
    rfl
  | nop | rstDef | ppBegin | flush | rdStatus | rdSize | rdTotalLo | rdTotalHi | rdSeed => rfl

/-- The transaction of a responding command: its response is taken (R34, R74). -/
theorem transact_of_responds (hdec : decode w = .command i) (h : i.responds = true) :
    transact P w s = (consumeResponse (perform P i s), some (perform P i s).rspWord) := by
  rw [transact, takeResponse, performWord_of_command hdec, if_pos (rspPending_perform_of_responds h)]

/-- Settles O16: the first step performs the command, whose response the second takes, as the transaction does. -/
theorem twoStepsMakeOneTransaction : Obligations.TwoStepsMakeOneTransaction := by
  intro s w rest i hhost hpending hdec hresponds
  refine ⟨perform referenceParams i (withHost (.consume :: rest) s), ?_, rspPending_perform_of_responds hresponds, ?_⟩
  · rw [stepPerformsTheDecodedCommand s w _ i hhost hpending hdec, exec_eq_perform]
    rfl
  · have hrest : perform referenceParams i { s with host := rest } = withHost rest (perform referenceParams i s) :=
      perform_withHost rest
    rw [transact_of_responds hdec hresponds, hrest, perform_withHost]
    exact ⟨step_of_consume rfl (rspPending_perform_of_responds (P := referenceParams) (s := s) hresponds), rfl, rfl⟩

/-- Whatever the host's next input is, a step answers a next state (R253). -/
theorem exists_stepAt_eq_next (P : Params G W) (s : Any.State G W) : ∃ t, stepAt P s = .next t := by
  simp only [stepAt, serve, acceptWord]
  split
  · exact ⟨_, rfl⟩
  · exact ⟨_, rfl⟩
  · exact ⟨_, rfl⟩
  · split
    · exact ⟨_, rfl⟩
    · split <;> exact ⟨_, rfl⟩

/-- Settles O17: a meaning is `.next` of an effect, and so is what a step serves. -/
theorem everyCommandCompletesInTheReferenceConfiguration :
    Obligations.EveryCommandCompletesInTheReferenceConfiguration :=
  ⟨exec_eq_perform, step_eq_stepAt, fun _ _ => exists_stepAt_eq_next⟩

/-- STATUS after RST_DEF: `BUF_EMPTY`, and `PP_OPEN` if a passphrase is open (R140, R289). -/
theorem statusWord_defaultStart (hdepth : P.bufDepth ≠ 0) :
    statusWord P (defaultStart P s) = if s.ppOpen then 0x00000005 else 0x00000001 := by
  have hfull : bufFull P (defaultStart P s) = false := by simpa [bufFull] using hdepth.symm
  cases ho : s.ppOpen <;> simp [statusWord, hfull, ho, bufEmpty, flagBit]

/-- Settles O19: RST_DEF is the default session start. -/
theorem rstDefStartsADefaultSession : Obligations.RstDefStartsADefaultSession :=
  ⟨by decide, fun s => ⟨defaultStart referenceParams s, rfl, rfl, statusWord_defaultStart (by decide)⟩⟩

/-! ### Padding (R107) -/

/-- The low `k` bytes of a value, read most significant first after `a`. -/
theorem foldl_bytes {n : Nat} (x : BitVec n) (k a : Nat) :
    ((List.range k).reverse.map fun j => x.extractLsb' (8 * j) 8).foldl (fun m b => 256 * m + b.toNat) a =
      256 ^ k * a + x.toNat % 256 ^ k := by
  induction k generalizing a with
  | zero => simp [Nat.mod_one]
  | succ k ih =>
    have hbyte : (x.extractLsb' (8 * k) 8).toNat = x.toNat / 256 ^ k % 256 := by
      rw [BitVec.extractLsb'_toNat, Nat.shiftRight_eq_div_pow, Nat.pow_mul]
    rw [List.range_succ, List.reverse_append, List.reverse_singleton, List.singleton_append, List.map_cons,
      List.foldl_cons, ih, hbyte, Nat.mod_pow_succ]
    ring

/-- The eight length bytes, read most significant first, are the bit length (R107). -/
theorem foldl_shaLengthBytes {len : Nat} (h : len ≤ 2 ^ 61 - 1) :
    (shaLengthBytes len).foldl (fun n b => 256 * n + b.toNat) 0 = 8 * len := by
  have hfold : (shaLengthBytes len).foldl (fun n b => 256 * n + b.toNat) 0 = _ := foldl_bytes (BitVec.ofNat 64 (8 * len)) 8 0
  rw [hfold, BitVec.toNat_ofNat]
  omega

/-- Settles O45: the tail fills whole blocks, of which its zero bytes leave the last eight to the bit length. -/
theorem paddingFillsWholeBlocks : Obligations.PaddingFillsWholeBlocks := by
  refine fun m hm => ⟨?_, shaZeros m.length, shaLengthBytes m.length, ?_, ?_, rfl, rfl, foldl_shaLengthBytes hm⟩
  · rw [shaPad, List.length_append, add_length_shaTail, shaBlockCount]
  · rw [shaZeros]
    omega
  · rw [shaZeros]
    omega

/-! ### Runs (R264) -/

theorem run_append_final (ws vs : List Word) (s : Any.State G W) :
    (run P (ws ++ vs) s).final = (run P vs (run P ws s).final).final := by
  induction ws generalizing s with
  | nil => rfl
  | cons w ws ih => exact ih (transact P w s).1

theorem run_append_responses (ws vs : List Word) (s : Any.State G W) :
    (run P (ws ++ vs) s).responses = (run P ws s).responses ++ (run P vs (run P ws s).final).responses := by
  induction ws generalizing s with
  | nil => rfl
  | cons w ws ih => exact congrArg ((transact P w s).2 :: ·) (ih (transact P w s).1)

theorem inSession_append (ws vs : List Word) (s : Any.State G W) :
    inSession P (ws ++ vs) s = (inSession P ws s && inSession P vs (run P ws s).final) := by
  induction ws generalizing s with
  | nil => simp [inSession, run]
  | cons w ws ih => simp [inSession, run, ih, Bool.and_assoc]

/-- With no response pending, a word that does not respond leaves what it performs (R34). -/
theorem transact_fst_of_not_responds (hdec : decode w = .command i) (h : i.responds = false) (hs : s.rspPending = false) :
    (transact P w s).1 = perform P i s := by
  rw [transact_fst, performWord_of_command hdec, consumeResponse_of_none]
  rw [rspPending_perform, hs, h, Bool.or_false]

/-! ### The pseudo-instructions ADD and PASSPHRASE (R81) -/

theorem responds_of_addData (h : addData i ≠ []) : i.responds = false := by
  cases i <;> simp [addData, Instr.responds] at h ⊢

theorem responds_of_absorbData (h : absorbData i ≠ []) : i.responds = false := by
  cases i <;> simp [absorbData, Instr.responds] at h ⊢

theorem rspPending_foldl_xorByte (bs : List Byte) : (bs.foldl (xorByte P) s).rspPending = s.rspPending := by
  obtain ⟨g, out, -, h⟩ := foldl_xorByte_shape P bs s
  rw [h]

theorem length_buf_foldl_xorByte (bs : List Byte) :
    (bs.foldl (xorByte P) s).buf.length = s.buf.length + bs.length := by
  obtain ⟨g, out, hlen, h⟩ := foldl_xorByte_shape P bs s
  rw [h, List.length_append, hlen]

/-- An add that fits is one transaction that combines its bytes (R171-R173). -/
theorem transact_add (hi : addData i ≠ []) (hs : s.rspPending = false)
    (hfit : s.buf.length + (addData i).length ≤ P.bufDepth) :
    (transact P (encode i) s).1 = (addData i).foldl (xorByte P) s ∧ inputOf P (encode i) s = addData i := by
  refine ⟨?_, by rw [inputOf_of_command (decode_encode i), if_pos hfit]⟩
  rw [transact_fst_of_not_responds (decode_encode i) (responds_of_addData hi) hs, perform_of_addData hi, addBytes,
    if_neg (Nat.not_lt.mpr hfit)]

/-- A run of adds whose bytes all fit combines them one after another (R170). -/
theorem run_adds {is : List Instr} (his : ∀ i ∈ is, addData i ≠ []) (hs : s.rspPending = false)
    (hfit : s.buf.length + (is.flatMap addData).length ≤ P.bufDepth) :
    (run P (is.map encode) s).final = (is.flatMap addData).foldl (xorByte P) s ∧
    (run P (is.map encode) s).added = is.flatMap addData := by
  induction is generalizing s with
  | nil => exact ⟨rfl, rfl⟩
  | cons i is ih =>
    obtain ⟨hi, his⟩ := List.forall_mem_cons.mp his
    rw [List.flatMap_cons, List.length_append] at hfit
    obtain ⟨hnext, hinput⟩ := transact_add (P := P) hi hs (by omega)
    obtain ⟨hfinal, hadded⟩ := ih (s := (addData i).foldl (xorByte P) s) his (by rw [rspPending_foldl_xorByte, hs])
      (by rw [length_buf_foldl_xorByte]; omega)
    simp only [List.map_cons, run, hnext, hinput, hfinal, hadded, List.flatMap_cons, List.foldl_append, and_self]

/-- The expansion of ADD consists of adds that carry the bytes in order (R81). -/
theorem expandAdd_spec (xs : List Byte) : (expandAdd xs).flatMap addData = xs ∧ ∀ i ∈ expandAdd xs, addData i ≠ [] := by
  induction xs using expandAdd.induct with
  | case1 a b c rest ih => simpa [expandAdd, addData] using ih
  | case2 a b => simp [expandAdd, addData]
  | case3 a => simp [expandAdd, addData]
  | case4 => simp [expandAdd]

/-- Settles O51: the expansion is a run of adds that fit. -/
theorem theAddPseudoInstructionAddsItsChunk : Obligations.TheAddPseudoInstructionAddsItsChunk := by
  intro G W P xs s hs hfit
  obtain ⟨hdata, hadds⟩ := expandAdd_spec xs
  have hrun := run_adds (P := P) hadds hs (by rwa [hdata])
  rwa [hdata] at hrun

/-- An absorb that fits is one transaction that appends its bytes to the open passphrase (R120-R122). -/
theorem transact_absorb (hi : absorbData i ≠ []) (hs : s.rspPending = false) (hopen : s.ppOpen = true)
    (hfit : s.ppMsg.length + (absorbData i).length ≤ P.ppMaxBytes) :
    (transact P (encode i) s).1 = { s with ppMsg := s.ppMsg ++ absorbData i } := by
  rw [transact_fst_of_not_responds (decode_encode i) (responds_of_absorbData hi) hs, perform_of_absorbData hi,
    absorbBytes, if_neg (by simp [hopen]), if_neg (Nat.not_lt.mpr hfit), foldl_ppAppend]

/-- A run of absorbs whose bytes all fit appends them to the open passphrase in order (R119). -/
theorem run_absorbs {is : List Instr} (his : ∀ i ∈ is, absorbData i ≠ []) (hs : s.rspPending = false)
    (hopen : s.ppOpen = true) (hfit : s.ppMsg.length + (is.flatMap absorbData).length ≤ P.ppMaxBytes) :
    (run P (is.map encode) s).final = { s with ppMsg := s.ppMsg ++ is.flatMap absorbData } := by
  induction is generalizing s with
  | nil => simp [run]
  | cons i is ih =>
    obtain ⟨hi, his⟩ := List.forall_mem_cons.mp his
    rw [List.flatMap_cons, List.length_append] at hfit
    have hnext := transact_absorb (P := P) hi hs hopen (by omega)
    have hrest := ih (s := { s with ppMsg := s.ppMsg ++ absorbData i }) his hs hopen
      (by rw [List.length_append]; omega)
    simp only [List.map_cons, run, hnext, hrest, List.flatMap_cons, List.append_assoc]

/-- The expansion of ABSORB consists of absorbs that carry the bytes in order (R81). -/
theorem expandAbsorb_spec (xs : List Byte) :
    (expandAbsorb xs).flatMap absorbData = xs ∧ ∀ i ∈ expandAbsorb xs, absorbData i ≠ [] := by
  induction xs using expandAbsorb.induct with
  | case1 a b c rest ih => simpa [expandAbsorb, absorbData] using ih
  | case2 a b => simp [expandAbsorb, absorbData]
  | case3 a => simp [expandAbsorb, absorbData]
  | case4 => simp [expandAbsorb]

theorem transact_ppBegin (hs : s.rspPending = false) : (transact P (encode .ppBegin) s).1 = withHasher true [] s :=
  transact_fst_of_not_responds (decode_encode .ppBegin) rfl hs

theorem transact_ppEnd (hs : s.rspPending = false) (hopen : s.ppOpen = true) :
    (transact P (encode .ppEnd) s).1 = sessionStart P (derive P s.ppMsg) true { s with ppOpen := false } := by
  rw [transact_fst_of_not_responds (decode_encode .ppEnd) rfl hs, perform, ppEnd_of_open hopen]

/-- ABSORB fills an opened passphrase with its bytes (R81, R119). -/
theorem run_expandAbsorb {xs : List Byte} (hs : s.rspPending = false) (hfit : xs.length ≤ P.ppMaxBytes) :
    (run P ((expandAbsorb xs).map encode) (withHasher true [] s)).final = withHasher true xs s := by
  obtain ⟨hdata, habsorbs⟩ := expandAbsorb_spec xs
  have hrun := run_absorbs (P := P) (s := withHasher true [] s) habsorbs hs rfl (by simpa [withHasher, hdata])
  rwa [hdata] at hrun

/-- Settles O52: PP_BEGIN opens an empty passphrase, the absorbs fill it, and PP_END starts its session. -/
theorem thePassphrasePseudoInstructionStartsItsSession : Obligations.ThePassphrasePseudoInstructionStartsItsSession := by
  intro G W P p s hs hfit
  have hwords : (expandPassphrase p).map encode = encode .ppBegin :: ((expandAbsorb p).map encode ++ [encode .ppEnd]) := by
    simp [expandPassphrase]
  rw [hwords, run, transact_ppBegin hs, run_append_final, run_expandAbsorb hs hfit]
  exact transact_ppEnd (s := withHasher true p s) hs rfl

/-! ### The total count (R213, R216) -/

/-- No word of a session but RD_TOTAL_LO changes the snapshot (R33, R216). -/
theorem totalHiSnap_transact (hkeep : keepsSession w s = true) (hw : decode w ≠ .command .rdTotalLo) :
    (transact P w s).1.totalHiSnap = s.totalHiSnap := by
  rw [transact_fst, consumeResponse_totalHiSnap]
  cases hdec : decode w with
  | illegal why => rw [performWord_of_illegal hdec, reject_totalHiSnap]
  | command i =>
    obtain ⟨-, -, hsnap, -⟩ := frame_perform (P := P) (startsSession_of_keepsSession hdec hkeep)
    rw [performWord_of_command hdec]
    exact hsnap fun hi => hw (by rw [hdec, hi])

theorem totalHiSnap_run {ws : List Word} (hin : inSession P ws s = true)
    (hws : ∀ w ∈ ws, decode w ≠ .command .rdTotalLo) : (run P ws s).final.totalHiSnap = s.totalHiSnap := by
  induction ws generalizing s with
  | nil => rfl
  | cons w ws ih =>
    obtain ⟨hkeep, hrest⟩ := inSession_cons.mp hin
    obtain ⟨hw, hws⟩ := List.forall_mem_cons.mp hws
    rw [run, ih hrest hws, totalHiSnap_transact hkeep hw]

/-- RD_TOTAL_LO answers the low half of the cursor and takes the high half into the snapshot (R212). -/
theorem transact_rdTotalLo :
    transact P (encode .rdTotalLo) s =
      ({ s with totalHiSnap := countHi s.cursor, rspPending := false, rspWord := countLo s.cursor },
        some (countLo s.cursor)) :=
  transact_of_responds (decode_encode .rdTotalLo) rfl

/-- RD_TOTAL_HI answers the snapshot (R215). -/
theorem transact_rdTotalHi :
    transact P (encode .rdTotalHi) s =
      ({ s with rspPending := false, rspWord := s.totalHiSnap }, some s.totalHiSnap) :=
  transact_of_responds (decode_encode .rdTotalHi) rfl

/-- The two halves of the count are its low 64 bits (R213). -/
theorem countHi_append_countLo (c : Count W) : countHi c ++ countLo c = c.setWidth 64 := by
  apply BitVec.eq_of_getLsbD_eq
  intro k hk
  rw [BitVec.getLsbD_append, BitVec.getLsbD_setWidth]
  by_cases hlow : k < 32
  · simp [countLo, hlow, hk]
  · simp [countHi, hlow, hk, show k - 32 < 32 by omega, show 32 + (k - 32) = k by omega]

theorem toNat_countHi_add_countLo (c : Count W) : (countHi c).toNat * 2 ^ 32 + (countLo c).toNat = c.toNat % 2 ^ 64 := by
  rw [toNat_countLo, countHi, BitVec.extractLsb'_toNat, Nat.shiftRight_eq_div_pow]
  omega

/-- Settles O57: the snapshot of the first read stays until the second, and the two make up the cursor. -/
theorem theTwoTotalReadsGiveTheCount : Obligations.TheTwoTotalReadsGiveTheCount := by
  intro G W P s p ws hpos hin hws
  have hsnap := totalHiSnap_run hin hws
  rw [transact_rdTotalLo] at hsnap
  have hcursor : s.cursor.toNat = p % 2 ^ W := by rw [hpos.1, BitVec.toNat_ofNat]
  refine ⟨countLo s.cursor, countHi s.cursor, ?_, ?_, toNat_countHi_add_countLo _, hcursor, fun hW => ?_⟩
  · rw [run, transact_rdTotalLo, List.head?_cons]
  · rw [run, run_append_responses, run, transact_rdTotalLo, transact_rdTotalHi, hsnap]
    exact List.getLast?_concat (l := some (countLo s.cursor) :: _)
  · rw [toNat_countHi_add_countLo, hcursor, Nat.mod_mod_of_dvd p (pow_dvd_pow 2 hW)]

/-! ### DUMP (R81, R218) -/

/-- The response of a drain of these bytes, at most three (R200). -/
def drainWord (bs : List Byte) : Word := orLanes 0 (drainHeader bs.length) bs

theorem responseCount_drainWord {bs : List Byte} (h : bs.length ≤ 3) : responseCount (drainWord bs) = bs.length :=
  responseCount_orLanes h

theorem responseBytes_drainWord {bs : List Byte} (h : bs.length ≤ 3) : responseBytes (drainWord bs) = bs :=
  responseBytes_orLanes h

/-- DRAIN3 answers the oldest three bytes, or as many as there are (R203). -/
theorem transact_drain3 :
    transact P (encode .drain3) s =
      ({ s with buf := s.buf.drop 3, rspPending := false, rspWord := drainWord (s.buf.take 3) },
        some (drainWord (s.buf.take 3))) := by
  have hp : perform P .drain3 s = respond (drainWord (s.buf.take 3)) { s with buf := s.buf.drop 3 } := by
    rw [drainWord, List.length_take]
    exact drain_eq 3 s
  rw [transact_of_responds (decode_encode .drain3) rfl, hp]
  rfl

/-- The responses DUMP gets from this buffer: three bytes at a time, until fewer are left (R218). -/
def dumpWords (bs : List Byte) : List Word :=
  if bs.length < 3 then [drainWord bs] else drainWord (bs.take 3) :: dumpWords (bs.drop 3)
termination_by bs.length
decreasing_by rw [List.length_drop]; omega

/-- The loop of DUMP empties the buffer and ends by itself, whatever bound above `L div 3` it has (R218). -/
theorem dumpLoop_eq {n : Nat} (hn : s.buf.length / 3 < n) :
    dumpLoop P n s =
      ({ s with buf := [], rspPending := false, rspWord := (dumpWords s.buf).getLastD s.rspWord }, dumpWords s.buf) := by
  induction n generalizing s with
  | zero => omega
  | succ n ih =>
    have hcount : responseCount (drainWord (s.buf.take 3)) = min 3 s.buf.length := by
      rw [responseCount_drainWord (List.length_take_le ..), List.length_take]
    rw [dumpLoop, transact_drain3, dumpWords]
    simp only [hcount]
    by_cases hlt : s.buf.length < 3
    · rw [if_pos (by omega), if_pos hlt, List.take_of_length_le hlt.le, List.drop_of_length_le hlt.le]
      rfl
    · rw [if_neg (by omega), if_neg hlt, ih (by rw [List.length_drop]; omega), List.getLastD_cons]

/-- The responses of DUMP are full triples and one shorter rest, which together are the buffer (R218). -/
theorem dumpWords_eq_concat (bs : List Byte) :
    ∃ (triples : List (List Byte)) (rest : List Byte),
      dumpWords bs = triples.map drainWord ++ [drainWord rest] ∧ (∀ x ∈ triples, x.length = 3) ∧
      triples.length = bs.length / 3 ∧ rest.length = bs.length % 3 ∧ triples.flatten ++ rest = bs := by
  induction bs using dumpWords.induct with
  | case1 bs hlt =>
    refine ⟨[], bs, by rw [dumpWords, if_pos hlt]; rfl, nofun, ?_, ?_, rfl⟩
    · rw [List.length_nil]
      omega
    · omega
  | case2 bs hge ih =>
    obtain ⟨triples, rest, hwords, hfull, hcount, hrest, hbytes⟩ := ih
    have htake : (bs.take 3).length = 3 := by rw [List.length_take]; omega
    rw [List.length_drop] at hcount hrest
    refine ⟨bs.take 3 :: triples, rest, by rw [dumpWords, if_neg hge, hwords]; rfl,
      List.forall_mem_cons.mpr ⟨htake, hfull⟩, ?_, ?_, ?_⟩
    · rw [List.length_cons]
      omega
    · omega
    · rw [List.flatten_cons, List.append_assoc, hbytes, List.take_append_drop]

/-- The bytes of the responses of DUMP are the buffer (R218). -/
theorem flatMap_responseBytes_dumpWords (bs : List Byte) : (dumpWords bs).flatMap responseBytes = bs := by
  induction bs using dumpWords.induct with
  | case1 bs hlt => simp [dumpWords, hlt, responseBytes_drainWord hlt.le]
  | case2 bs hge ih =>
    rw [dumpWords, if_neg hge, List.flatMap_cons, ih, responseBytes_drainWord (List.length_take_le ..),
      List.take_append_drop]

/-- What DUMP gives (R218). -/
theorem dump_eq :
    dump P s =
      ⟨{ s with buf := [], totalHiSnap := countHi s.cursor, rspPending := false, rspWord := countHi s.cursor },
        dumpWords s.buf, s.buf, some (s.cursor.setWidth 64)⟩ := by
  have hloop := dumpLoop_eq (P := P) (s := s) (n := s.buf.length + 1) (by omega)
  rw [dump, hloop, transact_rdTotalLo, transact_rdTotalHi, flatMap_responseBytes_dumpWords, totalOf,
    countHi_append_countLo]

/-- Settles O58: the loop's responses are full triples and a rest, and the two reads give the cursor. -/
theorem dumpReturnsTheWholeBuffer : Obligations.DumpReturnsTheWholeBuffer := by
  intro G W P s hs
  obtain ⟨triples, rest, hwords, hfull, hcount, hrest, -⟩ := dumpWords_eq_concat s.buf
  rw [dump_eq]
  dsimp only
  rw [hwords, List.dropLast_concat, List.getLast?_concat]
  refine ⟨?_, ?_, ?_, rfl, rfl, ?_, fun n hn => ?_⟩
  · rw [List.length_append, List.length_map, hcount, List.length_singleton]
  · refine List.forall_mem_map.mpr fun x hx => ?_
    rw [responseCount_drainWord (hfull x hx).le, hfull x hx]
  · rw [Option.map_some, responseCount_drainWord (by omega), hrest]
  · rw [hs]
  · rw [dumpLoop_eq hn, dumpLoop_eq (Nat.lt_succ_self _)]

/-! ### A reissued add (R288) -/

/-- Equal keystream states append the same bytes for the same input, whatever their buffers hold (R166). -/
theorem buf_foldl_xorByte_of_keystreamPart_eq (h : keystreamPart t = keystreamPart s) (bs : List Byte) :
    ∃ out, (bs.foldl (xorByte P) t).buf = t.buf ++ out ∧ (bs.foldl (xorByte P) s).buf = s.buf ++ out := by
  induction bs generalizing s t with
  | nil => exact ⟨[], (List.append_nil _).symm, (List.append_nil _).symm⟩
  | cons b bs ih =>
    simp only [keystreamPart, Prod.mk.injEq] at h
    obtain ⟨hgen, hseed, hcursor⟩ := h
    obtain ⟨out, ht, hs⟩ := ih (t := xorByte P t b) (s := xorByte P s b) (by simp [keystreamPart, hgen, hseed, hcursor])
    refine ⟨(b ^^^ (P.gdraw s.gen[selector s.cursor]).1) :: out, ?_, ?_⟩
    · rw [List.foldl_cons, ht]
      simp [hgen, hcursor]
    · rw [List.foldl_cons, hs]
      simp

/-- Only an add is rejected for want of room (R250). -/
theorem addData_of_rejection_ovf (h : rejection P i s = some .ovf) : addData i ≠ [] := by
  cases i with
  | ppAbs1 | ppAbs2 | ppAbs3 | ppEnd =>
    simp only [rejection] at h
    split_ifs at h <;> simp at h
  | add1 | add2 | add3 => exact List.cons_ne_nil _ _
  | _ => simp [rejection] at h

/-- Draining moves no keystream (R166, R200). -/
theorem keystreamPart_run_drain3 (k : Nat) :
    keystreamPart (run P (List.replicate k (encode .drain3)) s).final = keystreamPart s := by
  induction k generalizing s with
  | zero => rfl
  | succ k ih =>
    rw [List.replicate_succ, run, ih, transact_drain3]
    rfl

/-- Settles O59: the rejection and the drains leave the keystream where it was, so the reissued add gets the same of it. -/
theorem aReissuedAddGetsTheSameKeystream : Obligations.AReissuedAddGetsTheSameKeystream := by
  intro G W P i s k hrej hs hfit
  have hadd := addData_of_rejection_ovf hrej
  have hfinal : keystreamPart (run P (encode i :: List.replicate k (encode .drain3)) s).final = keystreamPart s := by
    rw [run, keystreamPart_run_drain3, transact_fst, performWord_of_command (decode_encode i), perform_of_rejection hrej]
    exact keystreamPart_reject .ovf
  generalize (run P (encode i :: List.replicate k (encode .drain3)) s).final = f at hfit hfinal
  obtain ⟨out, hf, hempty⟩ :=
    buf_foldl_xorByte_of_keystreamPart_eq (P := P) (s := { s with buf := [] }) hfinal (addData i)
  rw [appendedBy, performWord_of_command (decode_encode i), perform_of_addData hadd, addBytes,
    if_neg (Nat.not_lt.mpr hfit), hf, hempty, List.drop_left, List.nil_append]

/-! ### A clean end (R264) -/

theorem errBit_transact (d : CommandError) : errBit (transact P w s).1 d = errBit (performWord P w s) d := by
  rw [transact_fst]
  cases d <;> rfl

/-- The error that rejects a word in this state; `none` for a word that is performed (R250, R251). -/
def wordError (P : Params G W) (w : Word) (s : Any.State G W) : Option CommandError :=
  match decode w with
  | .command i => rejection P i s
  | .illegal _ => some .ill

theorem wordError_eq_none_iff : wordError P w s = none ↔ ∃ i, decode w = .command i ∧ rejection P i s = none := by
  cases hdec : decode w <;> simp [wordError, hdec]

/-- Within a session a rejected word sets its error's bit, and no word clears one (R32, R250). -/
theorem errBit_transact_of_keepsSession (hkeep : keepsSession w s = true) (d : CommandError) :
    errBit (transact P w s).1 d = (errBit s d || decide (wordError P w s = some d)) := by
  rw [errBit_transact]
  cases hdec : decode w with
  | illegal why => simp [performWord_of_illegal hdec, wordError, hdec, eq_comm]
  | command i =>
    simp [performWord_of_command hdec, errBit_perform, startsSession_of_keepsSession hdec hkeep, wordError, hdec]

theorem clean_of_clean_run {ws : List Word} (hin : inSession P ws s = true) (h : Clean (run P ws s).final) : Clean s := by
  induction ws generalizing s with
  | nil => exact h
  | cons w ws ih =>
    obtain ⟨hkeep, hrest⟩ := inSession_cons.mp hin
    intro d
    have hnext : errBit (transact P w s).1 d = false := ih hrest h d
    rw [errBit_transact_of_keepsSession hkeep, Bool.or_eq_false_iff] at hnext
    exact hnext.1

/-- A word of the session that leaves no error bit set is not rejected (R250-R252). -/
theorem wordError_of_clean (hkeep : keepsSession w s = true) (h : Clean (transact P w s).1) : wordError P w s = none := by
  refine Option.eq_none_iff_forall_ne_some.mpr fun e he => ?_
  have hset := h e
  simp [errBit_transact_of_keepsSession hkeep, he] at hset

/-- Settles O60: no bit set later was cleared, so none was set by any word. -/
theorem aCleanEndMeansNothingWasRejected : Obligations.ACleanEndMeansNothingWasRejected := by
  rintro G W P ws s hin hclean before after w rfl
  rw [inSession_append, Bool.and_eq_true, inSession_cons] at hin
  obtain ⟨-, hkeep, hafter⟩ := hin
  rw [run_append_final] at hclean
  exact wordError_eq_none_iff.mp (wordError_of_clean hkeep (clean_of_clean_run hafter hclean))

end Sys2Proof.Machine
